-- ==== Sys2Proof/Word.lean ====
section
/-! DEFINITION. The widths of the machine's values (spec 10_state.md R20): bytes, 16-bit words, the
instruction fields of 00_scope.md R9. Every value is unsigned (R8). -/

namespace Sys2Proof

/-- A memory byte, a V register, a timer (R21, R28, R29, R35). -/
abbrev Byte := BitVec 8

/-- An instruction word, and the 16-bit containers I, PC and the stack entries (R23, R24, R27). -/
abbrev Word := BitVec 16

/-- A register number, the field x or y of a word: it selects V[x] directly (R93). -/
abbrev Reg := BitVec 4

/-- The 80 bytes of the font constant FONT (10_state.md R41). -/
abbrev Font := Vector Byte 80

end Sys2Proof
end

