-- ==== Sys2Proof/Config.lean ====
section
/-! DEFINITION. What the hardware fixes once (00_scope.md R6, R7) and the free values. -/

namespace Sys2Proof

/-- Where PC stands after RESET (10_state.md R24, decision D2; UNVERIFIED, log 2). -/
abbrev Config.resetPc : Word := 0x200#16

/-- PROG_BASE: LOAD_ROM writes from here (00_scope.md R6). -/
abbrev Config.progBase : Nat := 0x200

/-- ROM_MAX: the longest ROM that LOAD_ROM takes, 4096 - 512 bytes (00_scope.md R6). -/
abbrev Config.romMax : Nat := 3584

/-- The default of the parameter FONT, the table of 10_state.md R41, glyph 0 first.
PRESUMED: the table is the family's customary font (general knowledge G1), not the source's (log 1).
Unsafe for a claim that rests on a byte of it; `State.font` keeps it a parameter. -/
def Config.fontDefault : Font := #v[
  0xF0, 0x90, 0x90, 0x90, 0xF0,
  0x20, 0x60, 0x20, 0x20, 0x70,
  0xF0, 0x10, 0xF0, 0x80, 0xF0,
  0xF0, 0x10, 0xF0, 0x10, 0xF0,
  0x90, 0x90, 0xF0, 0x10, 0x10,
  0xF0, 0x80, 0xF0, 0x10, 0xF0,
  0xF0, 0x80, 0xF0, 0x90, 0xF0,
  0xF0, 0x10, 0x20, 0x40, 0x40,
  0xF0, 0x90, 0xF0, 0x90, 0xF0,
  0xF0, 0x90, 0xF0, 0x10, 0xF0,
  0xF0, 0x90, 0xF0, 0x90, 0x90,
  0xE0, 0x90, 0xE0, 0x90, 0xE0,
  0xF0, 0x80, 0x80, 0x80, 0xF0,
  0xE0, 0x90, 0x90, 0x90, 0xE0,
  0xF0, 0x80, 0xF0, 0x80, 0xF0,
  0xF0, 0x80, 0xF0, 0x80, 0x80]

/-- The free value of the machine: the byte `rnd` that the k-th Cxkk since power-on draws
(60_exceptions.md R208, decision D8). No body: nothing can evaluate it or prove a value of it, so a
statement about it holds for every generator (log 4; safe). -/
opaque Config.rnd : Nat → BitVec 8

end Sys2Proof
end

