-- ==== Sys2Proof/Syntax.lean ====
section
/-! DEFINITION. The 34 instructions of 30_encoding.md R96, one constructor per row of the opcode table, in
its order. Operands carry their field's width in their type (R92, R93). -/

namespace Sys2Proof

/-- An instruction. `x`, `y` are register fields, `kk` an 8-bit immediate, `nnn` a 12-bit address, `n` a
row count. The shifts keep their `y` field, which the hardware decodes and does not use (R138, R140). -/
inductive Instr where
  | cls                                      -- 00E0 CLS
  | ret                                      -- 00EE RET
  | jp (nnn : BitVec 12)                     -- 1nnn JP nnn
  | call (nnn : BitVec 12)                   -- 2nnn CALL nnn
  | seImm (x : Reg) (kk : Byte)              -- 3xkk SE Vx, kk
  | sneImm (x : Reg) (kk : Byte)             -- 4xkk SNE Vx, kk
  | seReg (x y : Reg)                        -- 5xy0 SE Vx, Vy
  | ldImm (x : Reg) (kk : Byte)              -- 6xkk LD Vx, kk
  | addImm (x : Reg) (kk : Byte)             -- 7xkk ADD Vx, kk
  | ldReg (x y : Reg)                        -- 8xy0 LD Vx, Vy
  | orReg (x y : Reg)                        -- 8xy1 OR Vx, Vy
  | andReg (x y : Reg)                       -- 8xy2 AND Vx, Vy
  | xorReg (x y : Reg)                       -- 8xy3 XOR Vx, Vy
  | addReg (x y : Reg)                       -- 8xy4 ADD Vx, Vy
  | sub (x y : Reg)                          -- 8xy5 SUB Vx, Vy
  | shr (x y : Reg)                          -- 8xy6 SHR Vx
  | subn (x y : Reg)                         -- 8xy7 SUBN Vx, Vy
  | shl (x y : Reg)                          -- 8xyE SHL Vx
  | sneReg (x y : Reg)                       -- 9xy0 SNE Vx, Vy
  | ldI (nnn : BitVec 12)                    -- Annn LD I, nnn
  | jpV0 (nnn : BitVec 12)                   -- Bnnn JP V0, nnn
  | rnd (x : Reg) (kk : Byte)                -- Cxkk RND Vx, kk
  | drw (x y : Reg) (n : BitVec 4)           -- Dxyn DRW Vx, Vy, n
  | skp (x : Reg)                            -- Ex9E SKP Vx
  | sknp (x : Reg)                           -- ExA1 SKNP Vx
  | ldVxDt (x : Reg)                         -- Fx07 LD Vx, DT
  | ldVxK (x : Reg)                          -- Fx0A LD Vx, K
  | ldDtVx (x : Reg)                         -- Fx15 LD DT, Vx
  | ldStVx (x : Reg)                         -- Fx18 LD ST, Vx
  | addI (x : Reg)                           -- Fx1E ADD I, Vx
  | ldF (x : Reg)                            -- Fx29 LD F, Vx
  | ldB (x : Reg)                            -- Fx33 LD B, Vx
  | storeRegs (x : Reg)                      -- Fx55 LD [I], Vx
  | loadRegs (x : Reg)                       -- Fx65 LD Vx, [I]
  deriving DecidableEq, Repr

end Sys2Proof
end

