-- ==== Sys2Proof/WellFormed.lean ====
section
/-! DEFINITION. The checks the spec names on what is written before it runs. Every operand of `Instr`
carries its width in its type, so no instruction has an operand out of range, and every instruction
executes; these checks are premises a claim may take, never grounds on which the machine stops. -/

namespace Sys2Proof

/-- What the assembler of 30_encoding.md R100 can write: it encodes `y = 0` in SHR and SHL. A decoder
accepts any `y` there. -/
def Instr.assembles : Instr → Bool
  | .shr _ y => y == 0
  | .shl _ y => y == 0
  | _ => true

/-- The cautious check of 93_implementation_defined.md U1: VF is not named as `x` of a flag-writing 8xy
instruction, nor as `x` or `y` of Dxyn. A claim with this premise does not rest on decision D4. -/
def Instr.plainFlags : Instr → Bool
  | .addReg x _ => x != 0xF
  | .sub x _ => x != 0xF
  | .shr x _ => x != 0xF
  | .subn x _ => x != 0xF
  | .shl x _ => x != 0xF
  | .drw x y _ => x != 0xF && y != 0xF
  | _ => true

/-- The ROMs LOAD_ROM takes: at most 3584 bytes (20_memory.md R75). -/
def romFits (bytes : List Byte) : Bool := bytes.length ≤ Config.romMax

end Sys2Proof
end

