-- ==== Sys2Proof/Decode.lean ====
section
/-! DEFINITION. Decoding and encoding (30_encoding.md R91 to R98): the fields of a word, the decode tree of
R94, exact on every fixed nibble (R95), and the encoder written from the patterns of R96. -/

namespace Sys2Proof

/-! ## The fields of a word (00_scope.md R9) -/

/-- `top = op[15:12]`. -/
def opTop (op : Word) : BitVec 4 := op.extractLsb' 12 4
/-- `x = op[11:8]`. -/
def opX (op : Word) : Reg := op.extractLsb' 8 4
/-- `y = op[7:4]`. -/
def opY (op : Word) : Reg := op.extractLsb' 4 4
/-- `n = op[3:0]`. -/
def opN (op : Word) : BitVec 4 := op.extractLsb' 0 4
/-- `nn = kk = op[7:0]`. -/
def opNn (op : Word) : Byte := op.extractLsb' 0 8
/-- `nnn = op[11:0]`. -/
def opNnn (op : Word) : BitVec 12 := op.extractLsb' 0 12

/-! ## Decode -/

/-- Why bytes are no instruction: the family of an unrecognized word (30_encoding.md R98), or fewer than the
two bytes every instruction has (R91). -/
inductive Rejected where
  /-- fewer than two bytes; cannot happen in a fetch, which always reads two. -/
  | truncated
  /-- a word 0nnn other than 00E0 and 00EE. -/
  | family0
  /-- a word 5xyN with N not 0. -/
  | family5
  /-- a word 8xyN with N one of 8, 9, A, B, C, D, F. -/
  | family8
  /-- a word 9xyN with N not 0. -/
  | family9
  /-- a word Exnn with nn neither 9E nor A1. -/
  | familyE
  /-- a word Fxnn whose nn is none of the nine of the table. -/
  | familyF
  deriving DecidableEq, Repr

/-- Family 8 is selected by `n` (R94, R95). -/
def decode8 (op : Word) : Except Rejected Instr :=
  match opN op with
  | 0x0#4 => .ok (.ldReg (opX op) (opY op))
  | 0x1#4 => .ok (.orReg (opX op) (opY op))
  | 0x2#4 => .ok (.andReg (opX op) (opY op))
  | 0x3#4 => .ok (.xorReg (opX op) (opY op))
  | 0x4#4 => .ok (.addReg (opX op) (opY op))
  | 0x5#4 => .ok (.sub (opX op) (opY op))
  | 0x6#4 => .ok (.shr (opX op) (opY op))
  | 0x7#4 => .ok (.subn (opX op) (opY op))
  | 0xE#4 => .ok (.shl (opX op) (opY op))
  | _ => .error .family8

/-- Family F is selected by `nn`, both nibbles (R94, R95). -/
def decodeF (op : Word) : Except Rejected Instr :=
  match opNn op with
  | 0x07#8 => .ok (.ldVxDt (opX op))
  | 0x0A#8 => .ok (.ldVxK (opX op))
  | 0x15#8 => .ok (.ldDtVx (opX op))
  | 0x18#8 => .ok (.ldStVx (opX op))
  | 0x1E#8 => .ok (.addI (opX op))
  | 0x29#8 => .ok (.ldF (opX op))
  | 0x33#8 => .ok (.ldB (opX op))
  | 0x55#8 => .ok (.storeRegs (opX op))
  | 0x65#8 => .ok (.loadRegs (opX op))
  | _ => .error .familyF

/-- `Decode(op)` (30_encoding.md R94). Family 0 is selected by the whole word; 5xyN and 9xyN need N = 0 (R95,
decision D5; UNVERIFIED, log 9). -/
def decode (op : Word) : Except Rejected Instr :=
  match opTop op with
  | 0x0#4 => if op = 0x00E0#16 then .ok .cls else if op = 0x00EE#16 then .ok .ret else .error .family0
  | 0x1#4 => .ok (.jp (opNnn op))
  | 0x2#4 => .ok (.call (opNnn op))
  | 0x3#4 => .ok (.seImm (opX op) (opNn op))
  | 0x4#4 => .ok (.sneImm (opX op) (opNn op))
  | 0x5#4 => if opN op = 0 then .ok (.seReg (opX op) (opY op)) else .error .family5
  | 0x6#4 => .ok (.ldImm (opX op) (opNn op))
  | 0x7#4 => .ok (.addImm (opX op) (opNn op))
  | 0x8#4 => decode8 op
  | 0x9#4 => if opN op = 0 then .ok (.sneReg (opX op) (opY op)) else .error .family9
  | 0xA#4 => .ok (.ldI (opNnn op))
  | 0xB#4 => .ok (.jpV0 (opNnn op))
  | 0xC#4 => .ok (.rnd (opX op) (opNn op))
  | 0xD#4 => .ok (.drw (opX op) (opY op) (opN op))
  | 0xE#4 =>
    if opNn op = 0x9E then .ok (.skp (opX op))
    else if opNn op = 0xA1 then .ok (.sknp (opX op))
    else .error .familyE
  | _ => decodeF op

/-- Two bytes joined big-endian: the byte at the lower address in bits 15 to 8 (20_memory.md R65). -/
def wordOfBytes (hi lo : Byte) : Word := hi ++ lo
/-- The byte of a word that lies at the lower address (R65). -/
def hiByte (op : Word) : Byte := op.extractLsb' 8 8
/-- The byte of a word that lies at the higher address (R65). -/
def loByte (op : Word) : Byte := op.extractLsb' 0 8

/-- Decode the instruction at the head of a list of bytes, and what follows it. Total on any bytes. -/
def decodeBytes : List Byte → Except Rejected (Instr × List Byte)
  | hi :: lo :: rest =>
    match decode (wordOfBytes hi lo) with
    | .ok i => .ok (i, rest)
    | .error r => .error r
  | _ => .error .truncated

/-- The 16-bit word that the low `nbits` bits of `w` make, every higher bit 0. -/
def tableWord (nbits w : Nat) : Word := BitVec.ofNat 16 (w % 2 ^ nbits)

/-- The instruction the decoder reads from the bits `w` of a row of the opcode table: the word laid out as the
hardware stores it, high byte first (20_memory.md R65), and given to `decodeBytes`. -/
def decodeTableWord (nbits w : Nat) : Option Instr :=
  match decodeBytes [hiByte (tableWord nbits w), loByte (tableWord nbits w)] with
  | .ok (i, _) => some i
  | .error _ => none

/-! ## Encode: the word of an instruction, from the patterns of 30_encoding.md R96 -/

/-- Shape NNN: `tnnn` (R92). -/
def wordNnn (top : BitVec 4) (nnn : BitVec 12) : Word := top ++ nnn
/-- Shape XKK, and shape X with `kk` the fixed second byte: `txkk` (R92). -/
def wordXkk (top : BitVec 4) (x : Reg) (kk : Byte) : Word := top ++ x ++ kk
/-- Shape XYN, and shape XY with `n` the fixed low nibble: `txyn` (R92). -/
def wordXyn (top : BitVec 4) (x y : Reg) (n : BitVec 4) : Word := top ++ x ++ y ++ n

/-- The word of an instruction. -/
def encode : Instr → Word
  | .cls => 0x00E0
  | .ret => 0x00EE
  | .jp nnn => wordNnn 0x1 nnn
  | .call nnn => wordNnn 0x2 nnn
  | .seImm x kk => wordXkk 0x3 x kk
  | .sneImm x kk => wordXkk 0x4 x kk
  | .seReg x y => wordXyn 0x5 x y 0x0
  | .ldImm x kk => wordXkk 0x6 x kk
  | .addImm x kk => wordXkk 0x7 x kk
  | .ldReg x y => wordXyn 0x8 x y 0x0
  | .orReg x y => wordXyn 0x8 x y 0x1
  | .andReg x y => wordXyn 0x8 x y 0x2
  | .xorReg x y => wordXyn 0x8 x y 0x3
  | .addReg x y => wordXyn 0x8 x y 0x4
  | .sub x y => wordXyn 0x8 x y 0x5
  | .shr x y => wordXyn 0x8 x y 0x6
  | .subn x y => wordXyn 0x8 x y 0x7
  | .shl x y => wordXyn 0x8 x y 0xE
  | .sneReg x y => wordXyn 0x9 x y 0x0
  | .ldI nnn => wordNnn 0xA nnn
  | .jpV0 nnn => wordNnn 0xB nnn
  | .rnd x kk => wordXkk 0xC x kk
  | .drw x y n => wordXyn 0xD x y n
  | .skp x => wordXkk 0xE x 0x9E
  | .sknp x => wordXkk 0xE x 0xA1
  | .ldVxDt x => wordXkk 0xF x 0x07
  | .ldVxK x => wordXkk 0xF x 0x0A
  | .ldDtVx x => wordXkk 0xF x 0x15
  | .ldStVx x => wordXkk 0xF x 0x18
  | .addI x => wordXkk 0xF x 0x1E
  | .ldF x => wordXkk 0xF x 0x29
  | .ldB x => wordXkk 0xF x 0x33
  | .storeRegs x => wordXkk 0xF x 0x55
  | .loadRegs x => wordXkk 0xF x 0x65

/-- The bytes of an instruction in memory order (20_memory.md R65). -/
def encodeBytes (i : Instr) : List Byte := [hiByte (encode i), loByte (encode i)]

/-! ## The opcode map as masks (30_encoding.md R96) -/

/-- The columns mask and match of R96, for the row of an instruction. -/
def patternOf : Instr → Word × Word
  | .cls => (0xFFFF, 0x00E0)
  | .ret => (0xFFFF, 0x00EE)
  | .jp _ => (0xF000, 0x1000)
  | .call _ => (0xF000, 0x2000)
  | .seImm _ _ => (0xF000, 0x3000)
  | .sneImm _ _ => (0xF000, 0x4000)
  | .seReg _ _ => (0xF00F, 0x5000)
  | .ldImm _ _ => (0xF000, 0x6000)
  | .addImm _ _ => (0xF000, 0x7000)
  | .ldReg _ _ => (0xF00F, 0x8000)
  | .orReg _ _ => (0xF00F, 0x8001)
  | .andReg _ _ => (0xF00F, 0x8002)
  | .xorReg _ _ => (0xF00F, 0x8003)
  | .addReg _ _ => (0xF00F, 0x8004)
  | .sub _ _ => (0xF00F, 0x8005)
  | .shr _ _ => (0xF00F, 0x8006)
  | .subn _ _ => (0xF00F, 0x8007)
  | .shl _ _ => (0xF00F, 0x800E)
  | .sneReg _ _ => (0xF00F, 0x9000)
  | .ldI _ => (0xF000, 0xA000)
  | .jpV0 _ => (0xF000, 0xB000)
  | .rnd _ _ => (0xF000, 0xC000)
  | .drw _ _ _ => (0xF000, 0xD000)
  | .skp _ => (0xF0FF, 0xE09E)
  | .sknp _ => (0xF0FF, 0xE0A1)
  | .ldVxDt _ => (0xF0FF, 0xF007)
  | .ldVxK _ => (0xF0FF, 0xF00A)
  | .ldDtVx _ => (0xF0FF, 0xF015)
  | .ldStVx _ => (0xF0FF, 0xF018)
  | .addI _ => (0xF0FF, 0xF01E)
  | .ldF _ => (0xF0FF, 0xF029)
  | .ldB _ => (0xF0FF, 0xF033)
  | .storeRegs _ => (0xF0FF, 0xF055)
  | .loadRegs _ => (0xF0FF, 0xF065)

/-- One instruction of each row of R96, in the table's order. -/
def rowInstrs : List Instr :=
  [.cls, .ret, .jp 0, .call 0, .seImm 0 0, .sneImm 0 0, .seReg 0 0, .ldImm 0 0, .addImm 0 0,
   .ldReg 0 0, .orReg 0 0, .andReg 0 0, .xorReg 0 0, .addReg 0 0, .sub 0 0, .shr 0 0, .subn 0 0, .shl 0 0,
   .sneReg 0 0, .ldI 0, .jpV0 0, .rnd 0 0, .drw 0 0 0, .skp 0, .sknp 0, .ldVxDt 0, .ldVxK 0, .ldDtVx 0,
   .ldStVx 0, .addI 0, .ldF 0, .ldB 0, .storeRegs 0, .loadRegs 0]

/-- The 34 rows of R96 as (mask, match), in the table's order. -/
def opcodeRows : List (Word × Word) := rowInstrs.map patternOf

/-- A word is of a row iff `op & mask == match` (R96). -/
def matchesRow (op : Word) (row : Word × Word) : Bool := op &&& row.1 == row.2

end Sys2Proof
end

