-- ==== Sys2Proof/Machine/State.lean ====
section
/-! DEFINITION. The whole state of the core (10_state.md R20) as plain data, its faults and refusals, and the
state after reset (R40). -/

namespace Sys2Proof.Machine

/-- The two synchronous faults of 60_exceptions.md R180. They are held by the latch `State.fault`: taking one is a
next state (R184), so no instruction and no step ever answers `Outcome.fault`. -/
inductive Fault where
  /-- code 1: raised by 2nnn (CALL) when SP is 16. The core halts with the latch set (R185): neither safe nor
  unsafe, it is the spec's own behaviour. -/
  | stackOverflow
  /-- code 2: raised by 00EE (RET) when SP is 0. As above. -/
  | stackUnderflow
  deriving DecidableEq, Repr

/-- Why an instruction would have no meaning. -/
inductive Refusal where
  /-- an arm of `exec` whose instruction has no meaning yet. No arm raises it. Safe. -/
  | notModelled (mnemonic : String)
  deriving DecidableEq, Repr

/-- Memory: the cells (address, byte) that differ from what RESET leaves there, in rising order of address. -/
abbrev Memory := List Host.Cell

/-- The framebuffer `fb[px][py]` (10_state.md R30): entry px is column px, and bit py of it the pixel in row py
(DESIGN CHOICE, log 6). -/
abbrev Framebuffer := Vector (BitVec 32) 64

/-- The state record S of 10_state.md R20. `font` and `draws` are the model's own. -/
structure State where
  /-- the 4096 bytes of MemoryImage (R35). -/
  mem : Memory
  /-- V0 to VF (R21). -/
  v : Vector Byte 16
  /-- I, the index register (R23). -/
  i : Word
  /-- PC, the program counter (R24). -/
  pc : Word
  /-- SP, 0 to 16 (R26). -/
  sp : Fin 17
  /-- the return stack, outside memory (R27). -/
  stack : Vector Word 16
  /-- DT, the delay timer (R28). -/
  dt : Byte
  /-- ST, the sound timer (R29). -/
  st : Byte
  /-- the 64 by 32 pixels (R30). -/
  fb : Framebuffer
  /-- the framebuffer-changed flag (R31). -/
  dirty : Bool
  /-- the sixteen key flags (R33). -/
  key : Vector Bool 16
  /-- the fault latch (R34). -/
  fault : Option Fault
  /-- MODEL's own: the parameter FONT (R41, decision D9) as data. Nothing writes it, so a statement about
  every state holds for every font (log 1). -/
  font : Font
  /-- MODEL's own: how many `rnd` bytes have been drawn, the argument of the free value `Config.rnd` (log 4). -/
  draws : Nat
  deriving DecidableEq, Repr

/-- What RESET leaves (10_state.md R40), given the font and the draws made so far. -/
def State.resetWith (font : Font) (draws : Nat) : State where
  mem := []
  v := Vector.replicate 16 0
  i := 0
  pc := Config.resetPc
  sp := 0
  stack := Vector.replicate 16 0
  dt := 0
  st := 0
  fb := Vector.replicate 64 0
  dirty := false
  key := Vector.replicate 16 false
  fault := none
  font := font
  draws := draws

/-- The machine right after reset (R40), with the default font (PRESUMED, log 1) and no byte drawn yet (DESIGN CHOICE,
log 4). -/
def State.reset : State := State.resetWith Config.fontDefault 0

end Sys2Proof.Machine
end

