-- ==== Sys2Proof/Machine/Ops.lean ====
section
/-! DEFINITION. The named operations over memory, registers, program counter, stack and fault latch. Every
instruction and every event is written with them. -/

namespace Sys2Proof.Machine

/-! ## Memory (20_memory.md) -/

/-- What an unlisted address reads as: the contents RESET leaves, FONT in 0x000..0x04F and 0 above (10_state.md R40). -/
def Memory.unlisted (font : Font) (a : Nat) : Byte := if h : a < 80 then font[a] else 0

/-- The byte a cell list holds for an address, if it lists one. -/
def Memory.lookup (a : Nat) : Memory → Option Byte
  | [] => none
  | c :: m => if c.1 = a then some c.2 else Memory.lookup a m

/-- A cell list without an address. -/
def Memory.erase (a : Nat) (m : Memory) : Memory := m.filter fun c => c.1 != a

/-- A cell put before the first higher address. -/
def Memory.insert (a : Nat) (b : Byte) : Memory → Memory
  | [] => [(a, b)]
  | c :: m => if a < c.1 then (a, b) :: c :: m else c :: Memory.insert a b m

/-- `MemRead(addr, 1)`: the address is taken mod 4096, and no read fails (00_scope.md R11, 20_memory.md R62). -/
def Memory.read (font : Font) (m : Memory) (addr : Nat) : Byte :=
  (Memory.lookup (addr % 4096) m).getD (Memory.unlisted font (addr % 4096))

/-- `MemWrite(addr, 1, b)` (00_scope.md R11, 20_memory.md R62), keeping the canonical form: a byte equal to what the
address reads as unlisted is not listed. No address is protected (R64,
decision D13; UNVERIFIED, log 12). The list form is a DESIGN CHOICE (log 3). -/
def Memory.write (font : Font) (m : Memory) (addr : Nat) (b : Byte) : Memory :=
  if b = Memory.unlisted font (addr % 4096) then Memory.erase (addr % 4096) m
  else Memory.insert (addr % 4096) b (Memory.erase (addr % 4096) m)

/-- The canonical form: addresses strictly rising, each below 4096, and no cell holding what its address reads as
unlisted. -/
abbrev Memory.wf (font : Font) (m : Memory) : Prop :=
  m.Pairwise (fun c d => c.1 < d.1) ∧ ∀ c ∈ m, c.1 < 4096 ∧ c.2 ≠ Memory.unlisted font c.1

/-- The memory replaced. -/
def State.setMem (s : State) (m : Memory) : State := { s with mem := m }

/-- One byte read through the memory port (20_memory.md R74). -/
def State.memRead (s : State) (addr : Nat) : Byte := Memory.read s.font s.mem addr

/-- One byte written through the memory port. -/
def State.memWrite (s : State) (addr : Nat) (b : Byte) : State := s.setMem (Memory.write s.font s.mem addr b)

/-- `n` bytes read from ascending addresses (20_memory.md R68, decision D27). -/
def State.readBytes (s : State) (addr n : Nat) : List Byte := (List.range n).map fun k => s.memRead (addr + k)

/-- Bytes written to ascending addresses (R68, D27). -/
def State.writeBytes (s : State) (addr : Nat) : List Byte → State
  | [] => s
  | b :: bs => (s.memWrite addr b).writeBytes (addr + 1) bs

/-! ## Registers (10_state.md R21 to R31) -/

/-- `V[x]`. -/
def State.reg (s : State) (x : Reg) : Byte := s.v[x.toNat]'x.isLt
/-- `V[x] <- b`. -/
def State.setReg (s : State) (x : Reg) (b : Byte) : State := { s with v := s.v.set x.toNat b x.isLt }

/-- A value reduced mod 4096 into a 16-bit container: how every write of PC and I ends (R25, decision D21; UNVERIFIED,
log 12). -/
def addr12 (n : Nat) : Word := BitVec.ofNat 16 (n % 4096)

/-- `PC <- n mod 4096` (R25). -/
def State.jump (s : State) (n : Nat) : State := { s with pc := addr12 n }
/-- `PC <- NextPC(k)`, `k` past the instruction in execution (00_scope.md R13). -/
def State.advance (s : State) (k : Nat) : State := s.jump (s.pc.toNat + k)
/-- `I <- n mod 4096` (R23). -/
def State.setI (s : State) (n : Nat) : State := { s with i := addr12 n }
/-- `DT <- b` (R28). -/
def State.setDt (s : State) (b : Byte) : State := { s with dt := b }
/-- `ST <- b` (R29). -/
def State.setSt (s : State) (b : Byte) : State := { s with st := b }
/-- The framebuffer and the dirty flag replaced (R30, R31). -/
def State.setFb (s : State) (fb : Framebuffer) (dirty : Bool) : State := { s with fb := fb, dirty := dirty }
/-- The fault latch written (R34). -/
def State.setFault (s : State) (f : Option Fault) : State := { s with fault := f }
/-- One more `rnd` byte consumed (60_exceptions.md R208). -/
def State.countDraw (s : State) : State := { s with draws := s.draws + 1 }

/-- The byte `rnd` that a Cxkk in this state draws: the free value at the next index (R208). -/
def State.rnd (s : State) : Byte := Config.rnd s.draws

/-! ## Stack (00_scope.md R12): the check comes before any write -/

/-- `push(a)`. -/
def State.push (s : State) (a : Word) : Except Fault State :=
  if h : s.sp.val = 16 then .error .stackOverflow
  else .ok { s with
    stack := s.stack.set s.sp.val a (by have := s.sp.isLt; omega)
    sp := ⟨s.sp.val + 1, by have := s.sp.isLt; omega⟩ }

/-- `pop()`: the popped entry stays in the array. -/
def State.pop (s : State) : Except Fault (Word × State) :=
  if h : s.sp.val = 0 then .error .stackUnderflow
  else .ok (s.stack[s.sp.val - 1]'(by have := s.sp.isLt; omega),
    { s with sp := ⟨s.sp.val - 1, by have := s.sp.isLt; omega⟩ })

/-! ## How an instruction ends -/

/-- The outcome of one instruction or step. -/
abbrev Result := Host.Outcome State Fault Refusal

/-- `PC <- (PC + 2) mod 4096`, the end of every instruction that does not transfer control (30_encoding.md R90). -/
def State.done (s : State) : Result := .next (s.advance 2)

/-- A conditional skip: PC advances by 4 instead of 2 (40_flow.md R128). -/
def State.skipIf (s : State) (c : Bool) : Result := .next (s.advance (if c then 4 else 2))

/-- Taking an exception, `raise F(PC)` (60_exceptions.md R184): the latch is set and nothing else changes; PC stays on
the faulting instruction. There is no return from it: RESET alone clears the latch (R187; decision D10, UNVERIFIED, log 8). -/
def raise (f : Fault) (s : State) : Result := .next (s.setFault (some f))

/-- The latch as the 2-bit output `fault_code` (10_state.md R34). -/
def faultCode : Option Fault → BitVec 2
  | none => 0
  | some .stackOverflow => 1
  | some .stackUnderflow => 2

/-! ## The instruction cycle (30_encoding.md R90) -/

/-- The word a CYCLE fetches, two byte reads at PC and PC + 1, big-endian (20_memory.md R65, R66). -/
def State.fetch (s : State) : Word := s.memRead s.pc.toNat ++ s.memRead (s.pc.toNat + 1)

/-- An unrecognized word: PC + 2 and nothing else (60_exceptions.md R182). -/
def State.unrecognized (s : State) : Result := s.done

/-- A CYCLE while the latch is set: no fetch, no change (60_exceptions.md R185). -/
def State.halted (s : State) : Result := .next s

/-- A word stored where the next CYCLE fetches it, high byte first, and the latch clear, since a halted core fetches
nothing. -/
def State.placeWord (s : State) (hi lo : Byte) : State := (s.setFault none).writeBytes s.pc.toNat [hi, lo]

end Sys2Proof.Machine
end

