-- ==== Sys2Proof/Machine/Flags.lean ====
section
/-! DEFINITION. The flag computations of 10_state.md R22: every value an instruction writes to VF. -/

namespace Sys2Proof.Machine

/-- VF, the register that is also the flag output (R22). -/
abbrev vf : Reg := 0xF#4

/-- A condition as the flag byte 1 or 0. -/
def flagByte (c : Bool) : Byte := if c then 1 else 0

/-- 8xy4: carry, the true sum exceeds 255 (41_load_alu.md R136, R146). -/
def carryFlag (a b : Byte) : Byte := flagByte (decide (255 < a.toNat + b.toNat))
/-- 8xy5 and 8xy7: "no borrow", minuend at least subtrahend (R137, R139, R146). -/
def noBorrowFlag (a b : Byte) : Byte := flagByte (decide (b.toNat ≤ a.toNat))
/-- 8xy6: bit 0 before the shift (R138). -/
def shrFlag (a : Byte) : Byte := flagByte (a.getLsbD 0)
/-- 8xyE: bit 7 before the shift (R140). -/
def shlFlag (a : Byte) : Byte := flagByte (a.getLsbD 7)
/-- Fx1E: carry out of 12 bits, from the unreduced sum (42_index_memory.md R151). -/
def indexCarryFlag (i : Word) (b : Byte) : Byte := flagByte (decide (0xFFF < i.toNat + b.toNat))

/-- The end of a flag-writing ALU instruction: the result to V[x] first, then the flag to VF, then PC + 2 (10_state.md
R48, decision D4; UNVERIFIED, log 7). -/
def State.doneWithFlag (s : State) (x : Reg) (result flag : Byte) : Result :=
  ((s.setReg x result).setReg vf flag).done

end Sys2Proof.Machine
end

