-- ==== Sys2Proof/Machine/Operands.lean ====
section
/-! DEFINITION. The operand forms and the values computed from operands: the I-based address, the key selector, the
draw anchor, the decimal digits, the glyph address, the computed jump. -/

namespace Sys2Proof.Machine

/-- The one addressing mode of data, `I + k` (42_index_memory.md R156); the memory port reduces it mod 4096. -/
def State.indexed (s : State) (k : Nat) : Nat := s.i.toNat + k

/-- The key index of Ex9E and ExA1, `V[x][3:0]` (44_keys_timers.md R170, decision D7; UNVERIFIED, log 10). -/
def keySelect (b : Byte) : BitVec 4 := b.extractLsb' 0 4

/-- `key[k]` (10_state.md R33). -/
def State.keyDown (s : State) (k : BitVec 4) : Bool := s.key[k.toNat]'k.isLt

/-- The least index of a key that is down (44_keys_timers.md R172, decision D6; UNVERIFIED, log 10). -/
def State.lowestKey (s : State) : Option Nat := s.key.toList.findIdx? id

/-- The anchor's column, `V[x] mod 64` (43_display.md R161). -/
def anchorX (b : Byte) : Nat := b.toNat % 64
/-- The anchor's row, `V[y] mod 32` (R161). -/
def anchorY (b : Byte) : Nat := b.toNat % 32

/-- The three decimal digits of a byte, most significant first (42_index_memory.md R153). -/
def bcdDigits (b : Byte) : List Byte :=
  [BitVec.ofNat 8 (b.toNat / 100), BitVec.ofNat 8 (b.toNat / 10 % 10), BitVec.ofNat 8 (b.toNat % 10)]

/-- The address of a glyph: the whole byte times five (42_index_memory.md R152). -/
def glyphAddr (b : Byte) : Nat := b.toNat * 5

/-- The target of Bnnn before the reduction (40_flow.md R127). -/
def jumpV0Target (s : State) (nnn : BitVec 12) : Nat := (s.reg 0).toNat + nnn.toNat

/-- The registers V0 to Vx in order, the bytes Fx55 stores (42_index_memory.md R154). -/
def State.regsUpTo (s : State) (x : Reg) : List Byte :=
  (List.range (x.toNat + 1)).map fun j => s.reg (BitVec.ofNat 4 j)

/-- `for j in 0 .. k-1: V[j] <- MemRead(addr + j, 1)` (42_index_memory.md R155). -/
def State.loadRegsFrom (s : State) (addr : Nat) : Nat → State
  | 0 => s
  | k + 1 => (s.loadRegsFrom addr k).setReg (BitVec.ofNat 4 k) (s.memRead (addr + k))

end Sys2Proof.Machine
end

