-- ==== Sys2Proof/Machine/Sprite.lean ====
section
/-! DEFINITION. The sprite engine (43_display.md R161, R162): pixels, one sprite bit, one row, the whole sprite. -/

namespace Sys2Proof.Machine

/-- `fb[px][py]`; off the screen no pixel is set. -/
def pixel (fb : Framebuffer) (px py : Nat) : Bool := if h : px < 64 then fb[px].getLsbD py else false

/-- `fb[px][py] <- fb[px][py] ^ p`. -/
def xorPixel (fb : Framebuffer) (px py : Nat) (p : Bool) : Framebuffer :=
  if h : px < 64 then fb.set px (fb[px] ^^^ ((BitVec.ofBool p).setWidth 32 <<< py)) else fb

/-- A draw in progress: the framebuffer so far, and whether a collision has happened. -/
structure Drawing where
  fb : Framebuffer
  hit : Bool
  deriving DecidableEq, Repr

/-- One sprite bit `p` at (px, py): clipped at the edges; a collision is a bit 1 on a set pixel, tested before the XOR
(R161, R162 (a), (c), (d)). -/
def plot (px py : Nat) (p : Bool) (d : Drawing) : Drawing :=
  if px ≤ 63 ∧ py ≤ 31 then { fb := xorPixel d.fb px py p, hit := d.hit || (p && pixel d.fb px py) } else d

/-- `for b in 0 .. 7`: bit 7 - b of the row's byte goes to column ax + b (R161, R162 (b)). -/
def drawRow (byte : Byte) (ax py : Nat) (d : Drawing) : Drawing :=
  (List.range 8).foldl (fun d b => plot (ax + b) py (byte.getLsbD (7 - b)) d) d

/-- `for h in 0 .. n-1`: the h-th byte is row ay + h (R161). -/
def drawSprite (ax : Nat) : Nat → List Byte → Drawing → Drawing
  | _, [], d => d
  | ay, byte :: rest, d => drawSprite ax (ay + 1) rest (drawRow byte ax ay d)

end Sys2Proof.Machine
end

