-- ==== Sys2Proof/Machine/Display.lean ====
section
/-! DEFINITION. The meanings of the display instructions (spec 43_display.md). -/

namespace Sys2Proof.Machine

/-- 00E0 CLS (R160): every pixel unset, dirty set; VF is not written. -/
def execCls (s : State) : Result := (s.setFb (Vector.replicate 64 0) true).done

/-- The drawing Dxyn makes in a state: the anchor and the sprite bytes are read before anything is written (R161,
R162 (f)). -/
def State.drawn (s : State) (x y : Reg) (n : BitVec 4) : Drawing :=
  drawSprite (anchorX (s.reg x)) (anchorY (s.reg y)) (s.readBytes (s.indexed 0) n.toNat) { fb := s.fb, hit := false }

/-- Dxyn DRW (R161): the sprite XORed onto the framebuffer, VF = collision, dirty set when n > 0. -/
def execDrw (x y : Reg) (n : BitVec 4) (s : State) : Result :=
  ((s.setReg vf (flagByte (s.drawn x y n).hit)).setFb (s.drawn x y n).fb (s.dirty || decide (0 < n.toNat))).done

end Sys2Proof.Machine
end

