-- ==== Sys2Proof/Machine/Flow.lean ====
section
/-! DEFINITION. The meanings of the control transfer instructions (spec 40_flow.md). -/

namespace Sys2Proof.Machine

/-- 00EE RET (R120): `PC <- (pop() + 2) mod 4096`; StackUnderflow when SP is 0. -/
def execRet (s : State) : Result :=
  match s.pop with
  | .error f => raise f s
  | .ok (a, t) => .next (t.jump (a.toNat + 2))

/-- 1nnn JP (R121): `PC <- nnn`. -/
def execJp (nnn : BitVec 12) (s : State) : Result := .next (s.jump nnn.toNat)

/-- 2nnn CALL (R122): `push(PC)`, the CALL's own address, then `PC <- nnn`; StackOverflow when SP is 16. -/
def execCall (nnn : BitVec 12) (s : State) : Result :=
  match s.push s.pc with
  | .error f => raise f s
  | .ok t => .next (t.jump nnn.toNat)

/-- 3xkk SE (R123). -/
def execSeImm (x : Reg) (kk : Byte) (s : State) : Result := s.skipIf (s.reg x == kk)

/-- 4xkk SNE (R124). -/
def execSneImm (x : Reg) (kk : Byte) (s : State) : Result := s.skipIf (s.reg x != kk)

/-- 5xy0 SE (R125). -/
def execSeReg (x y : Reg) (s : State) : Result := s.skipIf (s.reg x == s.reg y)

/-- 9xy0 SNE (R126). -/
def execSneReg (x y : Reg) (s : State) : Result := s.skipIf (s.reg x != s.reg y)

/-- Bnnn JP V0 (R127): `PC <- (V[0] + nnn) mod 4096`, no carry recorded. -/
def execJpV0 (nnn : BitVec 12) (s : State) : Result := .next (s.jump (jumpV0Target s nnn))

end Sys2Proof.Machine
end

