-- ==== Sys2Proof/Machine/Index.lean ====
section
/-! DEFINITION. The meanings of the index register, BCD and block load/store instructions (spec 42_index_memory.md). None
of the memory instructions changes I (R156). -/

namespace Sys2Proof.Machine

/-- Annn LD I (R150). -/
def execLdI (nnn : BitVec 12) (s : State) : Result := (s.setI nnn.toNat).done

/-- Fx1E ADD I (R151): `I <- (I + V[x]) mod 4096`, VF = carry out of 12 bits, always written. -/
def execAddI (x : Reg) (s : State) : Result :=
  ((s.setI (s.i.toNat + (s.reg x).toNat)).setReg vf (indexCarryFlag s.i (s.reg x))).done

/-- Fx29 LD F (R152): `I <- V[x] * 5`. -/
def execLdF (x : Reg) (s : State) : Result := (s.setI (glyphAddr (s.reg x))).done

/-- Fx33 LD B (R153): hundreds, tens and ones at I, I + 1, I + 2. -/
def execLdB (x : Reg) (s : State) : Result := (s.writeBytes (s.indexed 0) (bcdDigits (s.reg x))).done

/-- Fx55 LD [I], Vx (R154): V0 to Vx at I to I + x. -/
def execStoreRegs (x : Reg) (s : State) : Result := (s.writeBytes (s.indexed 0) (s.regsUpTo x)).done

/-- Fx65 LD Vx, [I] (R155): I to I + x into V0 to Vx. -/
def execLoadRegs (x : Reg) (s : State) : Result := (s.loadRegsFrom (s.indexed 0) (x.toNat + 1)).done

end Sys2Proof.Machine
end

