-- ==== Sys2Proof/Machine/KeysTimers.lean ====
section
/-! DEFINITION. The meanings of the key and timer instructions (spec 44_keys_timers.md). -/

namespace Sys2Proof.Machine

/-- Ex9E SKP (R170): skip if the key named by the low four bits of V[x] is down. -/
def execSkp (x : Reg) (s : State) : Result := s.skipIf (s.keyDown (keySelect (s.reg x)))

/-- ExA1 SKNP (R171): skip if it is not down. -/
def execSknp (x : Reg) (s : State) : Result := s.skipIf (!s.keyDown (keySelect (s.reg x)))

/-- Fx07 LD Vx, DT (R173). -/
def execLdVxDt (x : Reg) (s : State) : Result := (s.setReg x s.dt).done

/-- Fx0A LD Vx, K (R172): with no key down nothing is written, PC included, so the next CYCLE fetches it again; else
V[x] gets the least index of a key that is down (decision D6). -/
def execLdVxK (x : Reg) (s : State) : Result :=
  match s.lowestKey with
  | none => .next s
  | some k => (s.setReg x (BitVec.ofNat 8 k)).done

/-- Fx15 LD DT, Vx (R174). -/
def execLdDtVx (x : Reg) (s : State) : Result := (s.setDt (s.reg x)).done

/-- Fx18 LD ST, Vx (R175): never a beep itself (decision D12; UNVERIFIED, log 11). -/
def execLdStVx (x : Reg) (s : State) : Result := (s.setSt (s.reg x)).done

end Sys2Proof.Machine
end

