-- ==== Sys2Proof/Machine/LoadAlu.lean ====
section
/-! DEFINITION. The meanings of the register load, ALU and random instructions (spec 41_load_alu.md). Arithmetic on
bytes wraps mod 256 (R145), which is the arithmetic of `BitVec 8`. -/

namespace Sys2Proof.Machine

/-- 6xkk LD (R130). -/
def execLdImm (x : Reg) (kk : Byte) (s : State) : Result := (s.setReg x kk).done

/-- 7xkk ADD (R131): no flag, even when the sum wraps. -/
def execAddImm (x : Reg) (kk : Byte) (s : State) : Result := (s.setReg x (s.reg x + kk)).done

/-- 8xy0 LD (R132). -/
def execLdReg (x y : Reg) (s : State) : Result := (s.setReg x (s.reg y)).done

/-- 8xy1 OR (R133): VF is left as it was. -/
def execOrReg (x y : Reg) (s : State) : Result := (s.setReg x (s.reg x ||| s.reg y)).done

/-- 8xy2 AND (R134). -/
def execAndReg (x y : Reg) (s : State) : Result := (s.setReg x (s.reg x &&& s.reg y)).done

/-- 8xy3 XOR (R135). -/
def execXorReg (x y : Reg) (s : State) : Result := (s.setReg x (s.reg x ^^^ s.reg y)).done

/-- 8xy4 ADD (R136): VF = carry. -/
def execAddReg (x y : Reg) (s : State) : Result :=
  s.doneWithFlag x (s.reg x + s.reg y) (carryFlag (s.reg x) (s.reg y))

/-- 8xy5 SUB (R137): VF = (Vx >= Vy). -/
def execSub (x y : Reg) (s : State) : Result :=
  s.doneWithFlag x (s.reg x - s.reg y) (noBorrowFlag (s.reg x) (s.reg y))

/-- 8xy6 SHR (R138): the y field is ignored; VF = the bit shifted out. -/
def execShr (x _y : Reg) (s : State) : Result := s.doneWithFlag x (s.reg x >>> 1) (shrFlag (s.reg x))

/-- 8xy7 SUBN (R139): VF = (Vy >= Vx). -/
def execSubn (x y : Reg) (s : State) : Result :=
  s.doneWithFlag x (s.reg y - s.reg x) (noBorrowFlag (s.reg y) (s.reg x))

/-- 8xyE SHL (R140): the y field is ignored; VF = the bit shifted out. -/
def execShl (x _y : Reg) (s : State) : Result := s.doneWithFlag x (s.reg x <<< 1) (shlFlag (s.reg x))

/-- Cxkk RND (R141): `V[x] <- rnd & kk`, `rnd` a free value (60_exceptions.md R208, log 4). -/
def execRnd (x : Reg) (kk : Byte) (s : State) : Result := (s.countDraw.setReg x (s.rnd &&& kk)).done

end Sys2Proof.Machine
end

