-- ==== Sys2Proof/Machine/Step.lean ====
section
/-! DEFINITION. One step of the machine: the CYCLE event of 30_encoding.md R90. It only calls. -/

namespace Sys2Proof.Machine

/-- A CYCLE (R90): halted, nothing (60_exceptions.md R185); else fetch, decode and execute one instruction, and an
unrecognized word is a no-op that advances PC (R182). The byte `rnd` of the event is `Config.rnd` at the state's
next draw (log 4). -/
def step (s : State) : Host.Outcome State Fault Refusal :=
  match s.fault with
  | some _ => s.halted
  | none =>
    match decode s.fetch with
    | .ok i => exec i s
    | .error _ => s.unrecognized

/-- The instruction word of the low `nbits` bits of `w` stored where the next step fetches it, and the fault latch
clear, without which no step fetches (R90). -/
def State.withFetchWord (s : State) (nbits w : Nat) : State :=
  s.placeWord (hiByte (tableWord nbits w)) (loByte (tableWord nbits w))

end Sys2Proof.Machine
end

