-- ==== Sys2Proof/Laws/PerInstr.lean ====
section
/-! SUPPORT. Statements about every instruction as syntax, one lemma per constructor.
RowWord: the word the encoder gives an instruction is of the instruction's own row of the opcode map, `op & mask == match`
(30_encoding.md R96). -/

namespace Sys2Proof.Laws.RowWord

/-- The encoded word matches the row of its instruction. -/
def Statement (i : Instr) : Prop := matchesRow (encode i) (patternOf i) = true

theorem matches_nnn (t : BitVec 4) (nnn : BitVec 12) : wordNnn t nnn &&& 0xF000#16 = wordNnn t 0 := by
  apply BitVec.eq_of_getLsbD_eq
  intro k hk
  have hm : (0xF000#16).getLsbD k = decide (12 ≤ k) := by
    revert k
    decide
  simp only [wordNnn, BitVec.getLsbD_and, hm, BitVec.getLsbD_append]
  by_cases h : k < 12
  · have : ¬ 12 ≤ k := by omega
    simp [h, this]
  · have : 12 ≤ k := by omega
    simp [h, this]

theorem matches_xkk (t x : BitVec 4) (kk : Byte) : wordXkk t x kk &&& 0xF0FF#16 = wordXkk t 0 kk := by
  apply BitVec.eq_of_getLsbD_eq
  intro k hk
  have hm : (0xF0FF#16).getLsbD k = (decide (k < 8) || decide (12 ≤ k)) := by
    revert k
    decide
  simp only [wordXkk, BitVec.getLsbD_and, hm, BitVec.getLsbD_append]
  by_cases h : k < 8
  · simp [h]
  · by_cases h2 : k - 8 < 4
    · have : ¬ 12 ≤ k := by omega
      simp [h, h2, this]
    · have : 12 ≤ k := by omega
      simp [h, h2, this]

theorem matches_xkk_top (t x : BitVec 4) (kk : Byte) : wordXkk t x kk &&& 0xF000#16 = wordXkk t 0 0 := by
  apply BitVec.eq_of_getLsbD_eq
  intro k hk
  have hm : (0xF000#16).getLsbD k = decide (12 ≤ k) := by
    revert k
    decide
  simp only [wordXkk, BitVec.getLsbD_and, hm, BitVec.getLsbD_append]
  by_cases h : k < 8
  · have : ¬ 12 ≤ k := by omega
    simp [h, this]
  · by_cases h2 : k - 8 < 4
    · have : ¬ 12 ≤ k := by omega
      simp [h, h2, this]
    · have : 12 ≤ k := by omega
      simp [h, h2, this]

theorem matches_xyn (t x y n : BitVec 4) : wordXyn t x y n &&& 0xF00F#16 = wordXyn t 0 0 n := by
  apply BitVec.eq_of_getLsbD_eq
  intro k hk
  have hm : (0xF00F#16).getLsbD k = (decide (k < 4) || decide (12 ≤ k)) := by
    revert k
    decide
  simp only [wordXyn, BitVec.getLsbD_and, hm, BitVec.getLsbD_append]
  by_cases h : k < 4
  · simp [h]
  · by_cases h2 : 12 ≤ k
    · have h3 : ¬ k - 4 < 4 := by omega
      have h4 : ¬ k - 4 - 4 < 4 := by omega
      simp [h, h2, h3, h4]
    · by_cases h3 : k - 4 < 4
      · simp [h, h2, h3]
      · have h4 : k - 4 - 4 < 4 := by omega
        simp [h, h2, h3, h4]

theorem matches_xyn_top (t x y n : BitVec 4) : wordXyn t x y n &&& 0xF000#16 = wordXyn t 0 0 0 := by
  apply BitVec.eq_of_getLsbD_eq
  intro k hk
  have hm : (0xF000#16).getLsbD k = decide (12 ≤ k) := by
    revert k
    decide
  simp only [wordXyn, BitVec.getLsbD_and, hm, BitVec.getLsbD_append]
  by_cases h : k < 4
  · have : ¬ 12 ≤ k := by omega
    simp [h, this]
  · by_cases h2 : 12 ≤ k
    · have h3 : ¬ k - 4 < 4 := by omega
      have h4 : ¬ k - 4 - 4 < 4 := by omega
      simp [h, h2, h3, h4]
    · by_cases h3 : k - 4 < 4
      · simp [h, h2, h3]
      · have h4 : k - 4 - 4 < 4 := by omega
        simp [h, h2, h3, h4]

/-- A masked word that equals the row's match is of the row. -/
theorem of_eq {i : Instr} {m : Word} (h : encode i &&& (patternOf i).1 = m) (e : m = (patternOf i).2) : Statement i := by
  unfold Statement matchesRow
  rw [h, e]
  exact beq_self_eq_true _

theorem cls : Statement .cls := of_eq (m := 0x00E0) (by decide) rfl
theorem ret : Statement .ret := of_eq (m := 0x00EE) (by decide) rfl
theorem jp (nnn : BitVec 12) : Statement (.jp nnn) := of_eq (matches_nnn 0x1 nnn) rfl
theorem call (nnn : BitVec 12) : Statement (.call nnn) := of_eq (matches_nnn 0x2 nnn) rfl
theorem seImm (x : Reg) (kk : Byte) : Statement (.seImm x kk) := of_eq (matches_xkk_top 0x3 x kk) rfl
theorem sneImm (x : Reg) (kk : Byte) : Statement (.sneImm x kk) := of_eq (matches_xkk_top 0x4 x kk) rfl
theorem seReg (x y : Reg) : Statement (.seReg x y) := of_eq (matches_xyn 0x5 x y 0x0) rfl
theorem ldImm (x : Reg) (kk : Byte) : Statement (.ldImm x kk) := of_eq (matches_xkk_top 0x6 x kk) rfl
theorem addImm (x : Reg) (kk : Byte) : Statement (.addImm x kk) := of_eq (matches_xkk_top 0x7 x kk) rfl
theorem ldReg (x y : Reg) : Statement (.ldReg x y) := of_eq (matches_xyn 0x8 x y 0x0) rfl
theorem orReg (x y : Reg) : Statement (.orReg x y) := of_eq (matches_xyn 0x8 x y 0x1) rfl
theorem andReg (x y : Reg) : Statement (.andReg x y) := of_eq (matches_xyn 0x8 x y 0x2) rfl
theorem xorReg (x y : Reg) : Statement (.xorReg x y) := of_eq (matches_xyn 0x8 x y 0x3) rfl
theorem addReg (x y : Reg) : Statement (.addReg x y) := of_eq (matches_xyn 0x8 x y 0x4) rfl
theorem sub (x y : Reg) : Statement (.sub x y) := of_eq (matches_xyn 0x8 x y 0x5) rfl
theorem shr (x y : Reg) : Statement (.shr x y) := of_eq (matches_xyn 0x8 x y 0x6) rfl
theorem subn (x y : Reg) : Statement (.subn x y) := of_eq (matches_xyn 0x8 x y 0x7) rfl
theorem shl (x y : Reg) : Statement (.shl x y) := of_eq (matches_xyn 0x8 x y 0xE) rfl
theorem sneReg (x y : Reg) : Statement (.sneReg x y) := of_eq (matches_xyn 0x9 x y 0x0) rfl
theorem ldI (nnn : BitVec 12) : Statement (.ldI nnn) := of_eq (matches_nnn 0xA nnn) rfl
theorem jpV0 (nnn : BitVec 12) : Statement (.jpV0 nnn) := of_eq (matches_nnn 0xB nnn) rfl
theorem rnd (x : Reg) (kk : Byte) : Statement (.rnd x kk) := of_eq (matches_xkk_top 0xC x kk) rfl
theorem drw (x y : Reg) (n : BitVec 4) : Statement (.drw x y n) := of_eq (matches_xyn_top 0xD x y n) rfl
theorem skp (x : Reg) : Statement (.skp x) := of_eq (matches_xkk 0xE x 0x9E) rfl
theorem sknp (x : Reg) : Statement (.sknp x) := of_eq (matches_xkk 0xE x 0xA1) rfl
theorem ldVxDt (x : Reg) : Statement (.ldVxDt x) := of_eq (matches_xkk 0xF x 0x07) rfl
theorem ldVxK (x : Reg) : Statement (.ldVxK x) := of_eq (matches_xkk 0xF x 0x0A) rfl
theorem ldDtVx (x : Reg) : Statement (.ldDtVx x) := of_eq (matches_xkk 0xF x 0x15) rfl
theorem ldStVx (x : Reg) : Statement (.ldStVx x) := of_eq (matches_xkk 0xF x 0x18) rfl
theorem addI (x : Reg) : Statement (.addI x) := of_eq (matches_xkk 0xF x 0x1E) rfl
theorem ldF (x : Reg) : Statement (.ldF x) := of_eq (matches_xkk 0xF x 0x29) rfl
theorem ldB (x : Reg) : Statement (.ldB x) := of_eq (matches_xkk 0xF x 0x33) rfl
theorem storeRegs (x : Reg) : Statement (.storeRegs x) := of_eq (matches_xkk 0xF x 0x55) rfl
theorem loadRegs (x : Reg) : Statement (.loadRegs x) := of_eq (matches_xkk 0xF x 0x65) rfl

end Sys2Proof.Laws.RowWord
end

