-- ==== Sys2Proof/Machine/Events.lean ====
section
/-! DEFINITION. The six atomic events of 10_state.md R45 and the outputs each emits (00_scope.md R13, R14). A run of the
machine is a list of events, in any order (R46; DESIGN CHOICE, log 5, log 13); `step` is the CYCLE event. -/

namespace Sys2Proof.Machine

/-- The events that change the machine, raised by the host one at a time (R45, R46). CYCLE's byte `rnd` is drawn from the
free value `Config.rnd` (log 4). -/
inductive Event where
  | reset
  | loadRom (bytes : List Byte)
  | cycle
  | tick
  | setKey (index : BitVec 4) (down : Bool)
  | snapshot
  deriving DecidableEq, Repr

/-- The outputs of the core (R13): pulses and answers to the host; none feeds back into the state (DESIGN CHOICE, log 14). -/
inductive Output where
  /-- the sound timer's step from 1 to 0 (60_exceptions.md R202). -/
  | beep
  /-- an unrecognized word and its address (R182). -/
  | unsupported (pc op : Word)
  /-- a fault taken: its code and the address of the faulting instruction (R184). -/
  | diagnostic (code : BitVec 2) (pc : Word)
  /-- a ROM over 3584 bytes, refused whole (20_memory.md R75). -/
  | romTooLarge
  /-- the 64 by 32 grid a SNAPSHOT hands over (R205). -/
  | grid (fb : Framebuffer)
  deriving DecidableEq, Repr

/-- A countdown by one that stops at 0 (60_exceptions.md R200, R201). -/
def countDown (b : Byte) : Byte := if b = 0 then 0 else b - 1

/-- RESET (70_reset_and_hazards.md R220). The font parameter is fixed for the machine, and draws already made are not made
again (log 4). -/
def State.resetEvent (s : State) : State := State.resetWith s.font s.draws

/-- LOAD_ROM (20_memory.md R75): all of it from 0x200 or, when it is too large, nothing. -/
def State.loadRom (s : State) (bytes : List Byte) : State :=
  if romFits bytes then s.writeBytes Config.progBase bytes else s

/-- TICK (60_exceptions.md R200). -/
def State.tick (s : State) : State := (s.setDt (countDown s.dt)).setSt (countDown s.st)

/-- SET_KEY (60_exceptions.md R203); the index port is four bits wide (decision D25). -/
def State.setKey (s : State) (index : BitVec 4) (down : Bool) : State :=
  { s with key := s.key.set index.toNat down index.isLt }

/-- SNAPSHOT (60_exceptions.md R205): clears dirty. -/
def State.snapshot (s : State) : State := s.setFb s.fb false

/-- One event applied. -/
def Event.apply (e : Event) (s : State) : Result :=
  match e with
  | .reset => .next s.resetEvent
  | .loadRom bytes => .next (s.loadRom bytes)
  | .cycle => step s
  | .tick => .next s.tick
  | .setKey index down => .next (s.setKey index down)
  | .snapshot => .next s.snapshot

/-- What a CYCLE that executes an instruction emits: a diagnostic when that instruction sets the latch (R184). -/
def diagnosticOf (s : State) : Result → List Output
  | .next t => if t.fault = none then [] else [.diagnostic (faultCode t.fault) s.pc]
  | _ => []

/-- What a CYCLE emits (R90, R182, R184, R185). -/
def State.cycleOutputs (s : State) : List Output :=
  match s.fault with
  | some _ => []
  | none =>
    match decode s.fetch with
    | .ok i => diagnosticOf s (exec i s)
    | .error _ => [.unsupported s.pc s.fetch]

/-- What an event raised in a state emits. -/
def Event.outputs (e : Event) (s : State) : List Output :=
  match e with
  | .reset => []
  | .loadRom bytes => if romFits bytes then [] else [.romTooLarge]
  | .cycle => s.cycleOutputs
  | .tick => if s.st = 1 then [.beep] else []
  | .setKey _ _ => []
  | .snapshot => [.grid s.fb]

/-- A run: events applied one after another, each to the state the one before left (R46). -/
def runEvents : List Event → State → Result
  | [], s => .next s
  | e :: es, s =>
    match e.apply s with
    | .next t => runEvents es t
    | .fault r => .fault r
    | .refused r => .refused r

/-- Everything a run emits, in order. -/
def runOutputs : List Event → State → List Output
  | [], _ => []
  | e :: es, s =>
    e.outputs s ++ match e.apply s with
      | .next t => runOutputs es t
      | _ => []

end Sys2Proof.Machine
end

