-- ==== Sys2Proof/Safety.lean ====
section
/-! DEFINITION. What counts as a sound state and a safe run, in the terms claims use. -/

namespace Sys2Proof.Machine

/-- What every reachable state meets: I, PC and the stack entries are confined to 0..4095 (10_state.md R38) and the
memory is in its canonical form. SP, the V registers and the timers are in range by their types. -/
structure State.Inv (s : State) : Prop where
  pc : s.pc.toNat < 4096
  i : s.i.toNat < 4096
  stack : ∀ k : Fin 16, s.stack[k].toNat < 4096
  mem : Memory.wf s.font s.mem

/-- The core is not halted (60_exceptions.md R185). -/
def State.running (s : State) : Prop := s.fault = none

/-- A safe run: it ends, and the core is not halted at its end (R185: a halted core is never a successful end). -/
def SafeRun (es : List Event) (s : State) : Prop := ∃ t, runEvents es s = .next t ∧ t.running

end Sys2Proof.Machine
end

