-- ==== Sys2Proof/Certificates/Slice0/Obligations.lean ====
section
/-! DEFINITION. What is claimed of the machine, from the spec's rules, and the few words the claims are written in.
A claim about an instruction gives its whole next state: a record update names every field that may change, so every
field it does not name is unchanged. "The spec's choice" marks a clause that rests on a decision of
spec/92_eei_decisions.md. -/

namespace Sys2Proof.Claims

open Sys2Proof.Machine

/-- V[r] of a register file. -/
def at_ (v : Vector Byte 16) (r : Reg) : Byte := v[r.toNat]'r.isLt

/-- PC + k mod 4096, k past the instruction in execution (00_scope.md R13). -/
def nextPc (s : State) (k : Nat) : Word := BitVec.ofNat 16 ((s.pc.toNat + k) % 4096)

/-- The sprite bit Dxyn lands on the pixel (px, py), 0 where none lands (43_display.md R161): bit 7 - (px - ax) of the
byte at I + (py - ay), for the anchor (ax, ay) = (V[x] mod 64, V[y] mod 32). -/
def spriteBit (s : State) (x y : Reg) (n : BitVec 4) (px py : Nat) : Bool :=
  if (s.reg x).toNat % 64 ≤ px ∧ px < (s.reg x).toNat % 64 + 8 ∧ (s.reg y).toNat % 32 ≤ py ∧
      py < (s.reg y).toNat % 32 + n.toNat then
    (s.memRead (s.i.toNat + (py - (s.reg y).toNat % 32))).getLsbD (7 - (px - (s.reg x).toNat % 64))
  else false

/-- Some sprite bit of 1 lands on a set pixel of the screen (R161). -/
def collides (s : State) (x y : Reg) (n : BitVec 4) : Prop :=
  ∃ px py, px < 64 ∧ py < 32 ∧ spriteBit s x y n px py = true ∧ pixel s.fb px py = true

/-- The next step of a running core executes the word w at PC: it is the word fetched, and the step is the execution of the
instruction it decodes to, or the no-op of an unrecognized word. -/
def executesNext (t : State) (w : Word) : Prop :=
  t.fetch = w ∧ (∀ i, decode w = .ok i → step t = exec i t) ∧
    ∀ r, decode w = .error r → step t = .next { t with pc := nextPc t 2 }

/-- The instructions that store to memory (10_state.md R47). -/
def writesMem : Instr → Bool
  | .ldB _ | .storeRegs _ => true
  | _ => false
/-- The instructions that write I (R23, R47). -/
def writesI : Instr → Bool
  | .ldI _ | .addI _ | .ldF _ => true
  | _ => false
/-- The instructions that write SP, the stack or the latch (R26, R27, R47). -/
def writesStack : Instr → Bool
  | .call _ | .ret => true
  | _ => false
/-- The instructions that write the framebuffer or the dirty flag (R30, R31, R47). -/
def writesFb : Instr → Bool
  | .cls | .drw _ _ _ => true
  | _ => false
/-- The registers an instruction may write (R21, R22, R47). -/
def mayWrite : Instr → Reg → Bool
  | .ldImm x _, r | .addImm x _, r | .rnd x _, r => r == x
  | .ldReg x _, r | .orReg x _, r | .andReg x _, r | .xorReg x _, r => r == x
  | .addReg x _, r | .sub x _, r | .shr x _, r | .subn x _, r | .shl x _, r => r == x || r == 0xF
  | .ldVxDt x, r | .ldVxK x, r => r == x
  | .drw _ _ _, r | .addI _, r => r == 0xF
  | .loadRegs x, r => r.toNat ≤ x.toNat
  | _, _ => false

end Sys2Proof.Claims

open Sys2Proof Sys2Proof.Machine Sys2Proof.Claims

/-! ## Encoding -/

/-- 30_encoding.md R94, R96: decoding the word of an instruction gives that instruction, with every operand at every
value; so do its bytes in memory order, whatever follows them. -/
def Obligations.DecodeInvertsEncode : Prop :=
  ∀ (i : Instr) (rest : List Byte),
    decode (encode i) = .ok i ∧ decodeBytes (encodeBytes i ++ rest) = .ok (i, rest)

/-- R96: a recognized word is the word of the instruction it decodes to, so no bit of it is dropped. That decoding is exact
on every fixed nibble (R95), without which this would be false, is the spec's choice (decision D5; log 9). -/
def Obligations.EncodeInvertsDecode : Prop :=
  ∀ (w : Word) (i : Instr), decode w = .ok i → encode i = w

/-- R96: a word is recognized exactly when it is of a row of the opcode map by `op & mask == match`, and it is then of
one row alone, the row of the instruction it decodes to. Exactness (R95) is the spec's choice (decision D5). -/
def Obligations.RecognizedWordMatchesOneRow : Prop :=
  ∀ w : Word,
    (∀ i, decode w = .ok i → opcodeRows.filter (matchesRow w) = [patternOf i]) ∧
    (∀ r, decode w = .error r → opcodeRows.filter (matchesRow w) = [])

/-- R98: which words are unrecognized, family by family (the spec's choice, decision D5). -/
def Obligations.UnrecognizedWordsByFamily : Prop :=
  ∀ w : Word,
    (decode w = .error .family0 ↔ opTop w = 0x0 ∧ w ≠ 0x00E0 ∧ w ≠ 0x00EE) ∧
    (decode w = .error .family5 ↔ opTop w = 0x5 ∧ opN w ≠ 0) ∧
    (decode w = .error .family8 ↔ opTop w = 0x8 ∧ opN w ∈ [0x8#4, 0x9#4, 0xA#4, 0xB#4, 0xC#4, 0xD#4, 0xF#4]) ∧
    (decode w = .error .family9 ↔ opTop w = 0x9 ∧ opN w ≠ 0) ∧
    (decode w = .error .familyE ↔ opTop w = 0xE ∧ opNn w ∉ [0x9E#8, 0xA1#8]) ∧
    (decode w = .error .familyF ↔
      opTop w = 0xF ∧ opNn w ∉ [0x07#8, 0x0A#8, 0x15#8, 0x18#8, 0x1E#8, 0x29#8, 0x33#8, 0x55#8, 0x65#8]) ∧
    decode w ≠ .error .truncated

/-- Ten words written out in the spec's examples (95_test_vectors.md): eight decode to the instructions they stand for, two are
unrecognized. That 5121 and 01E0 are unrecognized is the spec's choice (R95, decision D5; log 9). -/
def Obligations.SampleWordsDecode : Prop :=
  decode 0x00EE = .ok .ret ∧ decode 0x1234 = .ok (.jp 0x234) ∧ decode 0x8015 = .ok (.sub 0x0 0x1) ∧
  decode 0x6A05 = .ok (.ldImm 0xA 0x05) ∧ decode 0xA2F0 = .ok (.ldI 0x2F0) ∧ decode 0xD012 = .ok (.drw 0x0 0x1 0x2) ∧
  decode 0xE29E = .ok (.skp 0x2) ∧ decode 0xF265 = .ok (.loadRegs 0x2) ∧ decode 0x5121 = .error .family5 ∧
  decode 0x01E0 = .error .family0

/-! ## The step -/

/-- R90: with the latch clear, a step at a state whose two bytes at PC decode to an instruction is that instruction's
execution at that very state; nothing is added around it, and the instruction moves PC itself. -/
def Obligations.StepRunsDecodedInstruction : Prop :=
  ∀ (s : State) (i : Instr), s.fault = none → decode s.fetch = .ok i → step s = exec i s

/-- R65, R66, R90: with an instruction's word in memory at PC, its high byte at PC and its low byte at PC + 1 mod 4096,
a step executes it. -/
def Obligations.StepRunsEncodedBytes : Prop :=
  ∀ (s : State) (i : Instr), s.fault = none →
    s.memRead s.pc.toNat = (encode i).extractLsb' 8 8 →
    s.memRead ((s.pc.toNat + 1) % 4096) = (encode i).extractLsb' 0 8 → step s = exec i s

/-- 60_exceptions.md R182: an unrecognized word advances PC by 2 mod 4096, changes nothing else and is reported. The
form of the report is the spec's choice (decision D17). -/
def Obligations.UnrecognizedWordAdvancesPc : Prop :=
  ∀ (s : State) (r : Rejected), s.fault = none → decode s.fetch = .error r →
    step s = .next { s with pc := nextPc s 2 } ∧ Event.outputs .cycle s = [.unsupported s.pc s.fetch]

/-- R185: while the latch is set a CYCLE changes nothing and emits nothing (the spec's choice, decisions D10, D11). -/
def Obligations.HaltedCycleChangesNothing : Prop :=
  ∀ (s : State) (f : Fault), s.fault = some f → step s = .next s ∧ Event.outputs .cycle s = []

/-- No instruction, step or event ever ends in a fault or a refusal of the model: each answers a next state, whatever the
state. There is no illegal-instruction trap (R97) and no address faults (20_memory.md R62). That a stack fault is a latch is
the spec's choice (decisions D10, D11); that taking it and idling while halted are next states, and never
`Outcome.fault`, is the model's (DESIGN CHOICE, log 8). -/
def Obligations.EverythingAnswersNext : Prop :=
  (∀ (i : Instr) (s : State), ∃ t, exec i s = .next t) ∧ (∀ s : State, ∃ t, step s = .next t) ∧
  (∀ (e : Event) (s : State), ∃ t, e.apply s = .next t)

/-- 10_state.md R38: every step keeps I, PC and the stack entries in 0..4095; and it keeps the memory canonical. -/
def Obligations.StepKeepsConfinement : Prop :=
  ∀ s t : State, s.Inv → step s = .next t → t.Inv

/-- 10_state.md R38, R46: every run, in every order of the six events, keeps the confinement, from every state that has the
invariant. Its memory clause, the canonical form of the list, is the model's (DESIGN CHOICE, log 3), as is the run as a list
of events (log 13). -/
def Obligations.EveryRunStaysConfined : Prop :=
  ∀ (es : List Event) (s t : State), s.Inv → runEvents es s = .next t → t.Inv

/-- What reset leaves (R40) meets the confinement of R38, whatever the font and the draws already made. The canonical form of
the memory list, the invariant's other clause, is the model's (DESIGN CHOICE, log 3), and so is the count of draws (log 4). -/
def Obligations.ResetIsConfined : Prop :=
  State.reset.Inv ∧ ∀ (font : Font) (draws : Nat), (State.resetWith font draws).Inv

/-- R40, 70_reset_and_hazards.md R220: what the RESET event leaves, from any state; and `State.reset` is such a state. PC
= 0x200 and the clear latch are the spec's choice (decisions D2, D10); the font is a parameter that RESET copies to
0x000..0x04F (log 1), and the count of draws goes on (log 4). -/
def Obligations.ResetLeavesTheStatedValues : Prop :=
  (∃ s, Event.apply .reset s = .next State.reset) ∧
  ∀ s : State, ∃ t, Event.apply .reset s = .next t ∧ Event.outputs .reset s = [] ∧
    t.font = s.font ∧ t.draws = s.draws ∧
    (∀ a, t.memRead a = if h : a % 4096 < 80 then s.font[a % 4096] else 0) ∧
    (∀ r, t.reg r = 0) ∧ t.i = 0 ∧ t.pc = 0x200 ∧ t.sp = 0 ∧ (∀ k : Fin 16, t.stack[k] = 0) ∧ t.dt = 0 ∧ t.st = 0 ∧
    (∀ px py, pixel t.fb px py = false) ∧ t.dirty = false ∧ (∀ k : Fin 16, t.key[k] = false) ∧ t.fault = none

/-! ## Control transfer (40_flow.md) -/

/-- R121, whole. -/
def Obligations.JumpSetsPc : Prop :=
  ∀ (nnn : BitVec 12) (s : State), decode (0x1#4 ++ nnn) = .ok (.jp nnn) ∧
    exec (.jp nnn) s = .next { s with pc := nnn.setWidth 16 }

/-- R122 below the limit of 16: CALL stores its own address in the next free entry, counts it and jumps. -/
def Obligations.CallPushesItsOwnAddress : Prop :=
  ∀ (nnn : BitVec 12) (s : State) (h : s.sp.val < 16), decode (0x2#4 ++ nnn) = .ok (.call nnn) ∧
    exec (.call nnn) s = .next { s with
      stack := s.stack.set s.sp.val s.pc h, sp := ⟨s.sp.val + 1, by omega⟩, pc := nnn.setWidth 16 }

/-- R120 above an empty stack: RET takes the entry below SP, leaves it in place, and goes two past it mod 4096. -/
def Obligations.ReturnPopsTheTopEntry : Prop :=
  ∀ (s : State) (h : 0 < s.sp.val), decode 0x00EE = .ok .ret ∧
    exec .ret s = .next { s with
      sp := ⟨s.sp.val - 1, by omega⟩
      pc := BitVec.ofNat 16 (((s.stack[s.sp.val - 1]'(by omega)).toNat + 2) % 4096) }

/-- R120, R122, R180, R184: a full stack at CALL and an empty one at RET set the latch, change nothing else, and are
reported with their code and PC. Latch, codes and report are the spec's choice (decision D10). -/
def Obligations.StackFaultsOnlySetTheLatch : Prop :=
  (∀ (nnn : BitVec 12) (s : State), s.sp.val = 16 →
    exec (.call nnn) s = .next { s with fault := some .stackOverflow } ∧
    (s.fault = none → decode s.fetch = .ok (.call nnn) → Event.outputs .cycle s = [.diagnostic 1 s.pc])) ∧
  (∀ s : State, s.sp.val = 0 →
    exec .ret s = .next { s with fault := some .stackUnderflow } ∧
    (s.fault = none → decode s.fetch = .ok .ret → Event.outputs .cycle s = [.diagnostic 2 s.pc]))

/-- R180: no instruction but CALL at SP = 16 and RET at SP = 0 changes the latch. -/
def Obligations.OnlyStackInstructionsFault : Prop :=
  ∀ (i : Instr) (s t : State), exec i s = .next t → t.fault ≠ s.fault →
    (s.sp.val = 16 ∧ t.fault = some .stackOverflow ∧ ∃ nnn, i = .call nnn) ∨
    (s.sp.val = 0 ∧ t.fault = some .stackUnderflow ∧ i = .ret)

/-- R120, R122 together: a subroutine that leaves SP and the stack as the CALL left them returns to two past the CALL,
with SP as before it. -/
def Obligations.CallThenReturnResumes : Prop :=
  ∀ (nnn : BitVec 12) (s t u : State), s.sp.val < 16 → exec (.call nnn) s = .next t →
    u.sp = t.sp → u.stack = t.stack →
    exec .ret u = .next { u with sp := s.sp, pc := nextPc s 2 }

/-- R123, R124, whole. -/
def Obligations.ImmediateSkips : Prop :=
  ∀ (x : Reg) (kk : Byte) (s : State),
    (decode (0x3#4 ++ x ++ kk) = .ok (.seImm x kk) ∧
      exec (.seImm x kk) s = .next { s with pc := if s.reg x = kk then nextPc s 4 else nextPc s 2 }) ∧
    (decode (0x4#4 ++ x ++ kk) = .ok (.sneImm x kk) ∧
      exec (.sneImm x kk) s = .next { s with pc := if s.reg x ≠ kk then nextPc s 4 else nextPc s 2 })

/-- R125, R126, whole. -/
def Obligations.RegisterSkips : Prop :=
  ∀ (x y : Reg) (s : State),
    (decode (0x5#4 ++ x ++ y ++ 0x0#4) = .ok (.seReg x y) ∧
      exec (.seReg x y) s = .next { s with pc := if s.reg x = s.reg y then nextPc s 4 else nextPc s 2 }) ∧
    (decode (0x9#4 ++ x ++ y ++ 0x0#4) = .ok (.sneReg x y) ∧
      exec (.sneReg x y) s = .next { s with pc := if s.reg x ≠ s.reg y then nextPc s 4 else nextPc s 2 })

/-- R127, whole: always V0, the sum reduced mod 4096, no carry recorded. -/
def Obligations.JumpThroughV0 : Prop :=
  ∀ (nnn : BitVec 12) (s : State), decode (0xB#4 ++ nnn) = .ok (.jpV0 nnn) ∧
    exec (.jpV0 nnn) s = .next { s with pc := BitVec.ofNat 16 (((s.reg 0).toNat + nnn.toNat) % 4096) }

/-! ## Load, ALU, random (41_load_alu.md) -/

/-- R130, whole. -/
def Obligations.LoadImmediate : Prop :=
  ∀ (x : Reg) (kk : Byte) (s : State), decode (0x6#4 ++ x ++ kk) = .ok (.ldImm x kk) ∧
    ∃ v, exec (.ldImm x kk) s = .next { s with v := v, pc := nextPc s 2 } ∧
      ∀ r, at_ v r = if r = x then kk else s.reg r

/-- R131, whole: the sum wraps mod 256 and no flag is written. -/
def Obligations.AddImmediateWithoutFlag : Prop :=
  ∀ (x : Reg) (kk : Byte) (s : State), decode (0x7#4 ++ x ++ kk) = .ok (.addImm x kk) ∧
    ∃ v, exec (.addImm x kk) s = .next { s with v := v, pc := nextPc s 2 } ∧
      ∀ r, at_ v r = if r = x then BitVec.ofNat 8 (((s.reg x).toNat + kk.toNat) % 256) else s.reg r

/-- R132 to R135, whole: assign, OR, AND, XOR; VF is written only when it is x. -/
def Obligations.CopyAndLogicWithoutFlag : Prop :=
  ∀ (x y : Reg) (s : State),
    (decode (0x8#4 ++ x ++ y ++ 0x0#4) = .ok (.ldReg x y) ∧
      ∃ v, exec (.ldReg x y) s = .next { s with v := v, pc := nextPc s 2 } ∧
        ∀ r, at_ v r = if r = x then s.reg y else s.reg r) ∧
    (decode (0x8#4 ++ x ++ y ++ 0x1#4) = .ok (.orReg x y) ∧
      ∃ v, exec (.orReg x y) s = .next { s with v := v, pc := nextPc s 2 } ∧
        ∀ r, at_ v r = if r = x then s.reg x ||| s.reg y else s.reg r) ∧
    (decode (0x8#4 ++ x ++ y ++ 0x2#4) = .ok (.andReg x y) ∧
      ∃ v, exec (.andReg x y) s = .next { s with v := v, pc := nextPc s 2 } ∧
        ∀ r, at_ v r = if r = x then s.reg x &&& s.reg y else s.reg r) ∧
    (decode (0x8#4 ++ x ++ y ++ 0x3#4) = .ok (.xorReg x y) ∧
      ∃ v, exec (.xorReg x y) s = .next { s with v := v, pc := nextPc s 2 } ∧
        ∀ r, at_ v r = if r = x then s.reg x ^^^ s.reg y else s.reg r)

/-- R136, R146: VF = 1 iff the true sum exceeds 255, for every x and y; V[x] is the sum mod 256 unless x = F. That the
flag is what VF keeps when x = F is the spec's choice (decision D4). -/
def Obligations.AddRegistersSetsCarry : Prop :=
  ∀ (x y : Reg) (s : State), decode (0x8#4 ++ x ++ y ++ 0x4#4) = .ok (.addReg x y) ∧
    ∃ v, exec (.addReg x y) s = .next { s with v := v, pc := nextPc s 2 } ∧
      ∀ r, at_ v r =
        if r = 0xF then (if 255 < (s.reg x).toNat + (s.reg y).toNat then 1 else 0)
        else if r = x then BitVec.ofNat 8 (((s.reg x).toNat + (s.reg y).toNat) % 256)
        else s.reg r

/-- R137, R139, R146: VF = 1 iff the minuend is at least the subtrahend; V[x] is the difference mod 256 unless x = F (the
spec's choice, decision D4). -/
def Obligations.SubtractSetsNoBorrow : Prop :=
  ∀ (x y : Reg) (s : State),
    (decode (0x8#4 ++ x ++ y ++ 0x5#4) = .ok (.sub x y) ∧
      ∃ v, exec (.sub x y) s = .next { s with v := v, pc := nextPc s 2 } ∧
        ∀ r, at_ v r =
          if r = 0xF then (if (s.reg y).toNat ≤ (s.reg x).toNat then 1 else 0)
          else if r = x then BitVec.ofNat 8 (((s.reg x).toNat + 256 - (s.reg y).toNat) % 256)
          else s.reg r) ∧
    (decode (0x8#4 ++ x ++ y ++ 0x7#4) = .ok (.subn x y) ∧
      ∃ v, exec (.subn x y) s = .next { s with v := v, pc := nextPc s 2 } ∧
        ∀ r, at_ v r =
          if r = 0xF then (if (s.reg x).toNat ≤ (s.reg y).toNat then 1 else 0)
          else if r = x then BitVec.ofNat 8 (((s.reg y).toNat + 256 - (s.reg x).toNat) % 256)
          else s.reg r)

/-- R138, R140, R146: logical shifts of V[x] by one, whatever y is; VF is the bit shifted out (kept when x = F: the
spec's choice, decision D4). -/
def Obligations.ShiftsSetTheBitShiftedOut : Prop :=
  ∀ (x y : Reg) (s : State),
    (decode (0x8#4 ++ x ++ y ++ 0x6#4) = .ok (.shr x y) ∧
      ∃ v, exec (.shr x y) s = .next { s with v := v, pc := nextPc s 2 } ∧
        ∀ r, at_ v r =
          if r = 0xF then BitVec.ofNat 8 ((s.reg x).toNat % 2)
          else if r = x then BitVec.ofNat 8 ((s.reg x).toNat / 2)
          else s.reg r) ∧
    (decode (0x8#4 ++ x ++ y ++ 0xE#4) = .ok (.shl x y) ∧
      ∃ v, exec (.shl x y) s = .next { s with v := v, pc := nextPc s 2 } ∧
        ∀ r, at_ v r =
          if r = 0xF then BitVec.ofNat 8 ((s.reg x).toNat / 128)
          else if r = x then BitVec.ofNat 8 ((s.reg x).toNat * 2 % 256)
          else s.reg r)

/-- R141, R208: V[x] is a free byte masked with kk, the next byte is fresh. That the byte is an input under no law is the
spec's choice (decision D8); the statement holds whatever `Config.rnd` is (log 4). -/
def Obligations.RandomByteIsMasked : Prop :=
  ∀ (x : Reg) (kk : Byte) (s : State), decode (0xC#4 ++ x ++ kk) = .ok (.rnd x kk) ∧
    ∃ v, exec (.rnd x kk) s = .next { s with v := v, pc := nextPc s 2, draws := s.draws + 1 } ∧
      ∀ r, at_ v r = if r = x then Config.rnd s.draws &&& kk else s.reg r

/-! ## Index register and memory (42_index_memory.md) -/

/-- R150, whole. -/
def Obligations.LoadIndex : Prop :=
  ∀ (nnn : BitVec 12) (s : State), decode (0xA#4 ++ nnn) = .ok (.ldI nnn) ∧
    exec (.ldI nnn) s = .next { s with i := nnn.setWidth 16, pc := nextPc s 2 }

/-- R151, whole: I + V[x] mod 4096, VF the carry out of 12 bits of the unreduced sum; with x = F the old VF is added. -/
def Obligations.AddToIndexSetsCarry : Prop :=
  ∀ (x : Reg) (s : State), decode (0xF#4 ++ x ++ 0x1E#8) = .ok (.addI x) ∧
    ∃ v, exec (.addI x) s = .next { s with
        v := v, i := BitVec.ofNat 16 ((s.i.toNat + (s.reg x).toNat) % 4096), pc := nextPc s 2 } ∧
      ∀ r, at_ v r = if r = 0xF then (if 0xFFF < s.i.toNat + (s.reg x).toNat then 1 else 0) else s.reg r

/-- R152, whole: the whole byte times five. -/
def Obligations.GlyphAddress : Prop :=
  ∀ (x : Reg) (s : State), decode (0xF#4 ++ x ++ 0x29#8) = .ok (.ldF x) ∧
    exec (.ldF x) s = .next { s with i := BitVec.ofNat 16 ((s.reg x).toNat * 5), pc := nextPc s 2 }

/-- R153, whole: hundreds, tens and ones at I, I + 1, I + 2, each mod 4096; every other byte as before. -/
def Obligations.DecimalDigitsStored : Prop :=
  ∀ (x : Reg) (s : State), decode (0xF#4 ++ x ++ 0x33#8) = .ok (.ldB x) ∧
    ∃ m, exec (.ldB x) s = .next { s with mem := m, pc := nextPc s 2 } ∧
      ∀ a, Memory.read s.font m a =
        if a % 4096 = s.i.toNat % 4096 then BitVec.ofNat 8 ((s.reg x).toNat / 100)
        else if a % 4096 = (s.i.toNat + 1) % 4096 then BitVec.ofNat 8 ((s.reg x).toNat / 10 % 10)
        else if a % 4096 = (s.i.toNat + 2) % 4096 then BitVec.ofNat 8 ((s.reg x).toNat % 10)
        else s.memRead a

/-- R154, whole: V[j] at I + j mod 4096 for j in 0..x; every other byte as before. -/
def Obligations.RegistersStored : Prop :=
  ∀ (x : Reg) (s : State), decode (0xF#4 ++ x ++ 0x55#8) = .ok (.storeRegs x) ∧
    ∃ m, exec (.storeRegs x) s = .next { s with mem := m, pc := nextPc s 2 } ∧
      (∀ j : Reg, j.toNat ≤ x.toNat → Memory.read s.font m (s.i.toNat + j.toNat) = s.reg j) ∧
      (∀ a, (∀ j ≤ x.toNat, a % 4096 ≠ (s.i.toNat + j) % 4096) → Memory.read s.font m a = s.memRead a)

/-- R155, whole: V[j] from I + j mod 4096 for j in 0..x; the registers above x as before. -/
def Obligations.RegistersLoaded : Prop :=
  ∀ (x : Reg) (s : State), decode (0xF#4 ++ x ++ 0x65#8) = .ok (.loadRegs x) ∧
    ∃ v, exec (.loadRegs x) s = .next { s with v := v, pc := nextPc s 2 } ∧
      ∀ r, at_ v r = if r.toNat ≤ x.toNat then s.memRead (s.i.toNat + r.toNat) else s.reg r

/-- R154, R155 together: registers stored and loaded back with the same x and I are unchanged. -/
def Obligations.StoreThenLoadRestoresRegisters : Prop :=
  ∀ (x : Reg) (s t : State), exec (.storeRegs x) s = .next t →
    exec (.loadRegs x) t = .next { t with pc := nextPc t 2 }

/-- R153, R155 together: the digits stored and loaded back make the byte. -/
def Obligations.DigitsLoadedBackMakeTheByte : Prop :=
  ∀ (x : Reg) (s t : State), exec (.ldB x) s = .next t →
    ∃ u, exec (.loadRegs 2) t = .next u ∧
      (u.reg 0).toNat * 100 + (u.reg 1).toNat * 10 + (u.reg 2).toNat = (s.reg x).toNat ∧
      (u.reg 0).toNat ≤ 2 ∧ (u.reg 1).toNat ≤ 9 ∧ (u.reg 2).toNat ≤ 9

/-- 20_memory.md R73: a running program that stores over its next instruction, at PC + 2, executes the new bytes in its very
next step: Fx55 makes them V0 and V1 (V0 and the byte that was there when x = 0), Fx33 the hundreds and the tens. -/
def Obligations.StoreIsSeenByTheNextFetch : Prop :=
  ∀ (x : Reg) (s t : State), s.fault = none → s.i.toNat % 4096 = (s.pc.toNat + 2) % 4096 →
    (exec (.storeRegs x) s = .next t →
      executesNext t (s.reg 0 ++ if x = 0 then s.memRead (s.pc.toNat + 3) else s.reg 1)) ∧
    (exec (.ldB x) s = .next t →
      executesNext t (BitVec.ofNat 8 ((s.reg x).toNat / 100) ++ BitVec.ofNat 8 ((s.reg x).toNat / 10 % 10)))

/-! ## Display (43_display.md) -/

/-- R160, whole. -/
def Obligations.ClearScreen : Prop :=
  ∀ s : State, decode 0x00E0 = .ok .cls ∧
    ∃ fb, exec .cls s = .next { s with fb := fb, dirty := true, pc := nextPc s 2 } ∧
      ∀ px py, pixel fb px py = false

/-- R161 to R163: every pixel of the screen is XORed with the sprite bit that lands on it, clipped at the edges; VF = 1
iff one of them met a set pixel; dirty is set when n > 0. That the anchor is read before VF is written, with x or y = F,
is the spec's choice (decision D4). -/
def Obligations.DrawXorsTheSprite : Prop :=
  ∀ (x y : Reg) (n : BitVec 4) (s : State), decode (0xD#4 ++ x ++ y ++ n) = .ok (.drw x y n) ∧
    ∃ v fb, exec (.drw x y n) s = .next { s with
        v := v, fb := fb, dirty := s.dirty || decide (0 < n.toNat), pc := nextPc s 2 } ∧
      (∀ px < 64, ∀ py < 32, pixel fb px py = (pixel s.fb px py ^^ spriteBit s x y n px py)) ∧
      (∀ r, r ≠ 0xF → at_ v r = s.reg r) ∧
      (collides s x y n → at_ v 0xF = 1) ∧ (¬ collides s x y n → at_ v 0xF = 0)

/-- R163: the same sprite drawn twice at the same place restores the framebuffer exactly, and the second draw reports a
collision iff the sprite has a bit of 1 on a pixel of the screen that the first draw left set; for a clear area that is
any on-screen bit of 1. With x or y = F the anchor is the one read before VF is cleared, the spec's choice (R162 (f),
decision D4; log 7). -/
def Obligations.DrawTwiceRestores : Prop :=
  ∀ (x y : Reg) (n : BitVec 4) (s t : State), exec (.drw x y n) s = .next t →
    (t.reg x).toNat % 64 = (s.reg x).toNat % 64 → (t.reg y).toNat % 32 = (s.reg y).toNat % 32 →
    ∃ u, exec (.drw x y n) t = .next u ∧ u.fb = s.fb ∧
      (u.reg 0xF = 1 ↔
        ∃ px py, px < 64 ∧ py < 32 ∧ spriteBit s x y n px py = true ∧ pixel s.fb px py = false)

/-! ## Keys and timers (44_keys_timers.md) -/

/-- R170, R171: skip by the level of the key that the low four bits of V[x] name (the spec's choice for V[x] > 15,
decision D7). -/
def Obligations.KeySkips : Prop :=
  ∀ (x : Reg) (s : State),
    (decode (0xE#4 ++ x ++ 0x9E#8) = .ok (.skp x) ∧
      exec (.skp x) s = .next { s with
        pc := if s.key[(s.reg x).toNat % 16] = true then nextPc s 4 else nextPc s 2 }) ∧
    (decode (0xE#4 ++ x ++ 0xA1#8) = .ok (.sknp x) ∧
      exec (.sknp x) s = .next { s with
        pc := if s.key[(s.reg x).toNat % 16] = false then nextPc s 4 else nextPc s 2 })

/-- R172: with no key down Fx0A leaves the whole state as it was; else V[x] is the least index of a key that is down (the
spec's choice, decision D6). -/
def Obligations.KeyWait : Prop :=
  ∀ (x : Reg) (s : State), decode (0xF#4 ++ x ++ 0x0A#8) = .ok (.ldVxK x) ∧
    ((∀ j : Fin 16, s.key[j] = false) → exec (.ldVxK x) s = .next s) ∧
    (∀ k : Fin 16, s.key[k] = true → (∀ j : Fin 16, j < k → s.key[j] = false) →
      ∃ v, exec (.ldVxK x) s = .next { s with v := v, pc := nextPc s 2 } ∧
        ∀ r, at_ v r = if r = x then BitVec.ofNat 8 k.val else s.reg r)

/-- R173, R174, whole. -/
def Obligations.DelayTimerMoves : Prop :=
  ∀ (x : Reg) (s : State),
    (decode (0xF#4 ++ x ++ 0x07#8) = .ok (.ldVxDt x) ∧
      ∃ v, exec (.ldVxDt x) s = .next { s with v := v, pc := nextPc s 2 } ∧
        ∀ r, at_ v r = if r = x then s.dt else s.reg r) ∧
    (decode (0xF#4 ++ x ++ 0x15#8) = .ok (.ldDtVx x) ∧
      exec (.ldDtVx x) s = .next { s with dt := s.reg x, pc := nextPc s 2 })

/-- R175: ST is set and nothing is emitted, not even on writing 0 over a running timer; nor does a CYCLE of any other
recognized instruction emit anything (R90, R202), but for CALL at SP = 16 and RET at SP = 0, which take a fault. That no
instruction beeps is the spec's choice (decision D12), and that those two are the faults too (decision D10). -/
def Obligations.SoundTimerWrite : Prop :=
  (∀ (x : Reg) (s : State), decode (0xF#4 ++ x ++ 0x18#8) = .ok (.ldStVx x) ∧
    exec (.ldStVx x) s = .next { s with st := s.reg x, pc := nextPc s 2 }) ∧
  ∀ (i : Instr) (s : State), s.fault = none → decode s.fetch = .ok i →
    ((∃ nnn, i = .call nnn) → s.sp.val ≠ 16) → (i = .ret → s.sp.val ≠ 0) → Event.outputs .cycle s = []

/-! ## The other events (60_exceptions.md, 20_memory.md) -/

/-- R200, whole: each timer counts down by one and stops at 0; a beep exactly on the sound timer's step from 1 to 0. -/
def Obligations.TickCountsDown : Prop :=
  ∀ s : State,
    Event.apply .tick s = .next { s with
      dt := BitVec.ofNat 8 (s.dt.toNat - 1), st := BitVec.ofNat 8 (s.st.toNat - 1) } ∧
    Event.outputs .tick s = if s.st.toNat = 1 then [.beep] else []

/-- R201, R202: n ticks take each timer down by n, never below 0, and beep exactly once if the sound timer reached 0
among them. That only a tick beeps is the spec's choice (decision D12). -/
def Obligations.TicksReachZeroAndBeepOnce : Prop :=
  ∀ (n : Nat) (s : State),
    runEvents (List.replicate n .tick) s = .next { s with
      dt := BitVec.ofNat 8 (s.dt.toNat - n), st := BitVec.ofNat 8 (s.st.toNat - n) } ∧
    runOutputs (List.replicate n .tick) s = if 1 ≤ s.st.toNat ∧ s.st.toNat ≤ n then [.beep] else []

/-- R203: SET_KEY writes one flag and nothing else, without output. The 4-bit index is the spec's choice (decision
D25). -/
def Obligations.SetKeyWritesOneFlag : Prop :=
  ∀ (k : BitVec 4) (down : Bool) (s : State), Event.outputs (.setKey k down) s = [] ∧
    ∃ key, Event.apply (.setKey k down) s = .next { s with key := key } ∧
      ∀ j : Fin 16, key[j] = if j.val = k.toNat then down else s.key[j]

/-- R205: SNAPSHOT hands over the framebuffer as it stands and clears dirty. The layout of the grid is the model's (the
spec leaves it open, decision D22). -/
def Obligations.SnapshotClearsDirty : Prop :=
  ∀ s : State, Event.apply .snapshot s = .next { s with dirty := false } ∧ Event.outputs .snapshot s = [.grid s.fb]

/-- R75, whole: a ROM of at most 3584 bytes is copied to 0x200 on and nothing else changes; a longer one changes nothing
and is reported. -/
def Obligations.LoadRomCopiesOrRefuses : Prop :=
  ∀ (bytes : List Byte) (s : State),
    (bytes.length ≤ 3584 → Event.outputs (.loadRom bytes) s = [] ∧
      ∃ m, Event.apply (.loadRom bytes) s = .next { s with mem := m } ∧
        (∀ (k : Nat) (h : k < bytes.length), Memory.read s.font m (0x200 + k) = bytes[k]) ∧
        (∀ a < 4096, a < 0x200 ∨ 0x200 + bytes.length ≤ a → Memory.read s.font m a = s.memRead a)) ∧
    (3584 < bytes.length →
      Event.apply (.loadRom bytes) s = .next s ∧ Event.outputs (.loadRom bytes) s = [.romTooLarge])

/-- 70_reset_and_hazards.md R222: RESET, then LOAD_ROM of a ROM that fits, leave a running core about to execute the word
of the first two ROM bytes, at 0x200 (the spec's choice, decision D2). -/
def Obligations.BootFetchesTheFirstRomWord : Prop :=
  ∀ (s : State) (b0 b1 : Byte) (rest : List Byte), rest.length ≤ 3582 →
    ∃ t, runEvents [.reset, .loadRom (b0 :: b1 :: rest)] s = .next t ∧ t.pc = 0x200 ∧ t.fault = none ∧
      t.fetch = b0 ++ b1 ∧ ∀ i, decode (b0 ++ b1) = .ok i → step t = exec i t

/-! ## Rules of the whole machine -/

/-- 10_state.md R47: what each instruction may write. No instruction writes the keys or the font, only Fx33 and Fx55
memory, only Annn, Fx1E, Fx29 I, only 2nnn and 00EE the stack, only Fx15 DT, only Fx18 ST, only 00E0 and Dxyn the
framebuffer and dirty. -/
def Obligations.InstructionWriteMatrix : Prop :=
  ∀ (i : Instr) (s t : State), exec i s = .next t →
    t.key = s.key ∧ t.font = s.font ∧
    (writesMem i = false → t.mem = s.mem) ∧ (writesI i = false → t.i = s.i) ∧
    (writesStack i = false → t.sp = s.sp ∧ t.stack = s.stack ∧ t.fault = s.fault) ∧
    (writesFb i = false → t.fb = s.fb ∧ t.dirty = s.dirty) ∧
    ((∀ x, i ≠ .ldDtVx x) → t.dt = s.dt) ∧ ((∀ x, i ≠ .ldStVx x) → t.st = s.st) ∧
    ((∀ x kk, i ≠ .rnd x kk) → t.draws = s.draws)

/-- R21, R22, R47: an instruction changes no V register but its destination, VF where the instruction writes the flag,
and V0 to Vx in Fx65. -/
def Obligations.RegisterWriters : Prop :=
  ∀ (i : Instr) (s t : State) (r : Reg), exec i s = .next t → mayWrite i r = false → t.reg r = s.reg r

/-- R47: TICK, SET_KEY, SNAPSHOT and LOAD_ROM leave the registers, I, PC, the stack, every pixel and the latch as they
were, and none but its own event writes the timers, the keys, dirty or memory. The font (log 1) and the count of draws
(log 4), the model's own fields, stay too, so memory reads as before at every address. -/
def Obligations.HostEventWriteMatrix : Prop :=
  ∀ (e : Event) (s t : State), e ≠ .reset → e ≠ .cycle → e.apply s = .next t →
    t.v = s.v ∧ t.i = s.i ∧ t.pc = s.pc ∧ t.sp = s.sp ∧ t.stack = s.stack ∧ t.fb = s.fb ∧ t.fault = s.fault ∧
    t.font = s.font ∧ t.draws = s.draws ∧
    (e ≠ .tick → t.dt = s.dt ∧ t.st = s.st) ∧ ((∀ k d, e ≠ .setKey k d) → t.key = s.key) ∧
    (e ≠ .snapshot → t.dirty = s.dirty) ∧ ((∀ bs, e ≠ .loadRom bs) → t.mem = s.mem)

/-- R24, R25, R128, R172: where PC can be after a CYCLE of a running core: on the instruction when it took a fault or when it is
Fx0A with no key down, else two or four past it, or at the target of a jump, a call, a computed jump or a return, which
may be the instruction itself. That PC stays on a fault is the spec's choice (decision D10; log 8). -/
def Obligations.PcAfterACycle : Prop :=
  ∀ s t : State, s.fault = none → step s = .next t →
    (t.pc = s.pc ∧ (t.fault ≠ none ∨
      (∃ x, decode s.fetch = .ok (.ldVxK x)) ∧ ∀ j : Fin 16, s.key[j] = false)) ∨
    t.pc = nextPc s 2 ∨ t.pc = nextPc s 4 ∨
    (∃ nnn, (decode s.fetch = .ok (.jp nnn) ∨ decode s.fetch = .ok (.call nnn)) ∧ t.pc = nnn.setWidth 16) ∨
    (∃ nnn, decode s.fetch = .ok (.jpV0 nnn) ∧ t.pc.toNat = ((s.reg 0).toNat + nnn.toNat) % 4096) ∨
    (decode s.fetch = .ok .ret ∧ ∃ h : s.sp.val - 1 < 16, t.pc.toNat = (s.stack[s.sp.val - 1].toNat + 2) % 4096)

/-- R185, R187: once the latch is set, no run without a RESET clears it or changes the registers, I, PC, the stack or a
pixel, whatever the events (the spec's choice, decisions D10, D11). -/
def Obligations.HaltedUntilReset : Prop :=
  ∀ (es : List Event) (s t : State) (f : Fault), s.fault = some f → .reset ∉ es → runEvents es s = .next t →
    t.fault = some f ∧ t.v = s.v ∧ t.i = s.i ∧ t.pc = s.pc ∧ t.sp = s.sp ∧ t.stack = s.stack ∧ t.fb = s.fb

/-- R185: a run without a RESET that ends unhalted was never halted on the way. -/
def Obligations.SafeRunHasSafePrefixes : Prop :=
  ∀ (es fs : List Event) (s : State), .reset ∉ fs → SafeRun (es ++ fs) s → SafeRun es s

/-- 60_exceptions.md R208: the byte `rnd` reaches nothing but Cxkk: every other instruction does the same whatever byte is
next (the spec's choice, decision D8). -/
def Obligations.RandomByteReachesOnlyRnd : Prop :=
  ∀ (i : Instr) (s t : State) (d : Nat), (∀ x kk, i ≠ .rnd x kk) → exec i s = .next t →
    exec i { s with draws := d } = .next { t with draws := d }

/-- 10_state.md R28, R29: Fx07 alone reads the delay timer and no instruction reads the sound timer: whatever DT and ST are
beforehand, any other instruction leaves everything but the timers the same. -/
def Obligations.TimersReachOnlyFx07 : Prop :=
  ∀ (i : Instr) (s t : State) (d e : Byte), (∀ x, i ≠ .ldVxDt x) → exec i s = .next t →
    ∃ u, exec i { s with dt := d, st := e } = .next u ∧ { u with dt := t.dt, st := t.st } = t
end

