-- ==== Sys2Proof/Laws/Decode.lean ====
section
/-! SUPPORT. The fields of the words the encoder builds, that a word is its fields joined, and that a word is its two
bytes joined (30_encoding.md R91, R92). -/

namespace Sys2Proof

variable (t x y n : BitVec 4) (kk : Byte) (nnn : BitVec 12)

/-- A joined word's high part is its high operand. -/
theorem extract_high {a b : Nat} (u : BitVec a) (v : BitVec b) : (u ++ v).extractLsb' b a = u := by
  apply BitVec.eq_of_getLsbD_eq
  intro k hk
  simp [BitVec.getLsbD_append, hk]

/-- A slice inside the low operand of a joined word is a slice of it. -/
theorem extract_low {a b : Nat} (u : BitVec a) (v : BitVec b) (s l : Nat) (h : s + l ≤ b) :
    (u ++ v).extractLsb' s l = v.extractLsb' s l := by
  apply BitVec.eq_of_getLsbD_eq
  intro k hk
  have : s + k < b := by omega
  simp [BitVec.getLsbD_append, hk, this]

/-- A slice inside the high operand of a joined word is a slice of it. -/
theorem extract_mid {a b : Nat} (u : BitVec a) (v : BitVec b) (s l : Nat) :
    (u ++ v).extractLsb' (b + s) l = u.extractLsb' s l := by
  apply BitVec.eq_of_getLsbD_eq
  intro k hk
  have h1 : ¬ b + s + k < b := by omega
  have h2 : b + s + k - b = s + k := by omega
  simp [BitVec.getLsbD_append, hk, h1, h2]

theorem extract_all {a : Nat} (u : BitVec a) : u.extractLsb' 0 a = u := by
  apply BitVec.eq_of_getLsbD_eq
  intro k hk
  simp [hk]

theorem opTop_wordNnn : opTop (wordNnn t nnn) = t := extract_high t nnn
theorem opNnn_wordNnn : opNnn (wordNnn t nnn) = nnn :=
  (extract_low t nnn 0 12 (by omega)).trans (extract_all nnn)

theorem opTop_wordXkk : opTop (wordXkk t x kk) = t :=
  (extract_mid (t ++ x) kk 4 4).trans (extract_high t x)
theorem opX_wordXkk : opX (wordXkk t x kk) = x :=
  ((extract_mid (t ++ x) kk 0 4).trans (extract_low t x 0 4 (by omega))).trans (extract_all x)
theorem opNn_wordXkk : opNn (wordXkk t x kk) = kk :=
  (extract_low (t ++ x) kk 0 8 (by omega)).trans (extract_all kk)

theorem opTop_wordXyn : opTop (wordXyn t x y n) = t :=
  ((extract_mid (t ++ x ++ y) n 8 4).trans (extract_mid (t ++ x) y 4 4)).trans (extract_high t x)
theorem opX_wordXyn : opX (wordXyn t x y n) = x :=
  (((extract_mid (t ++ x ++ y) n 4 4).trans (extract_mid (t ++ x) y 0 4)).trans
    (extract_low t x 0 4 (by omega))).trans (extract_all x)
theorem opY_wordXyn : opY (wordXyn t x y n) = y :=
  ((extract_mid (t ++ x ++ y) n 0 4).trans (extract_low (t ++ x) y 0 4 (by omega))).trans (extract_all y)
theorem opN_wordXyn : opN (wordXyn t x y n) = n :=
  (extract_low (t ++ x ++ y) n 0 4 (by omega)).trans (extract_all n)

/-- A slice cut in two and joined again. -/
theorem extract_join {w : Nat} (u : BitVec w) (s l m : Nat) :
    u.extractLsb' (s + l) m ++ u.extractLsb' s l = u.extractLsb' s (m + l) := by
  apply BitVec.eq_of_getLsbD_eq
  intro k hk
  rw [BitVec.getLsbD_append]
  by_cases h : k < l
  · have : k < m + l := by omega
    simp [h, this]
  · have h1 : k - l < m := by omega
    have h2 : s + l + (k - l) = s + k := by omega
    simp [h, h1, h2, hk]

/-- A word is its top nibble and nnn. -/
theorem wordNnn_fields (op : Word) : wordNnn (opTop op) (opNnn op) = op :=
  (extract_join op 0 12 4).trans (extract_all op)

/-- A word is its top nibble, x and kk. -/
theorem wordXkk_fields (op : Word) : wordXkk (opTop op) (opX op) (opNn op) = op := by
  unfold wordXkk opTop opX opNn
  rw [extract_join op 8 4 4]
  exact (extract_join op 0 8 8).trans (extract_all op)

/-- A word is its four nibbles. -/
theorem wordXyn_fields (op : Word) : wordXyn (opTop op) (opX op) (opY op) (opN op) = op := by
  unfold wordXyn opTop opX opY opN
  rw [extract_join op 8 4 4, extract_join op 4 4 8]
  exact (extract_join op 0 4 12).trans (extract_all op)

/-- A word is its two bytes, the high one first. -/
theorem wordOfBytes_bytes (op : Word) : wordOfBytes (hiByte op) (loByte op) = op :=
  (extract_join op 0 8 8).trans (extract_all op)

end Sys2Proof
end

