-- ==== Sys2Proof/Laws/State.lean ====
section
/-! SUPPORT. What each named update does to each field of the state, and that reading a register or a byte sees only
the update of that register or byte's storage. Every lemma is an unfolding, so that no later proof unfolds a record. -/

namespace Sys2Proof.Machine

variable (s : State)

/-! ### `setMem` -/

@[simp] theorem State.setMem_mem (m : Memory) : (s.setMem m).mem = m := rfl
@[simp] theorem State.setMem_v (m : Memory) : (s.setMem m).v = s.v := rfl
@[simp] theorem State.setMem_i (m : Memory) : (s.setMem m).i = s.i := rfl
@[simp] theorem State.setMem_pc (m : Memory) : (s.setMem m).pc = s.pc := rfl
@[simp] theorem State.setMem_sp (m : Memory) : (s.setMem m).sp = s.sp := rfl
@[simp] theorem State.setMem_stack (m : Memory) : (s.setMem m).stack = s.stack := rfl
@[simp] theorem State.setMem_dt (m : Memory) : (s.setMem m).dt = s.dt := rfl
@[simp] theorem State.setMem_st (m : Memory) : (s.setMem m).st = s.st := rfl
@[simp] theorem State.setMem_fb (m : Memory) : (s.setMem m).fb = s.fb := rfl
@[simp] theorem State.setMem_dirty (m : Memory) : (s.setMem m).dirty = s.dirty := rfl
@[simp] theorem State.setMem_key (m : Memory) : (s.setMem m).key = s.key := rfl
@[simp] theorem State.setMem_fault (m : Memory) : (s.setMem m).fault = s.fault := rfl
@[simp] theorem State.setMem_font (m : Memory) : (s.setMem m).font = s.font := rfl
@[simp] theorem State.setMem_draws (m : Memory) : (s.setMem m).draws = s.draws := rfl
@[simp] theorem State.setMem_reg (m : Memory) (y : Reg) : (s.setMem m).reg y = s.reg y := rfl

/-! ### `memWrite` -/

@[simp] theorem State.memWrite_mem (a : Nat) (b : Byte) : (s.memWrite a b).mem = Memory.write s.font s.mem a b := rfl
@[simp] theorem State.memWrite_v (a : Nat) (b : Byte) : (s.memWrite a b).v = s.v := rfl
@[simp] theorem State.memWrite_i (a : Nat) (b : Byte) : (s.memWrite a b).i = s.i := rfl
@[simp] theorem State.memWrite_pc (a : Nat) (b : Byte) : (s.memWrite a b).pc = s.pc := rfl
@[simp] theorem State.memWrite_sp (a : Nat) (b : Byte) : (s.memWrite a b).sp = s.sp := rfl
@[simp] theorem State.memWrite_stack (a : Nat) (b : Byte) : (s.memWrite a b).stack = s.stack := rfl
@[simp] theorem State.memWrite_dt (a : Nat) (b : Byte) : (s.memWrite a b).dt = s.dt := rfl
@[simp] theorem State.memWrite_st (a : Nat) (b : Byte) : (s.memWrite a b).st = s.st := rfl
@[simp] theorem State.memWrite_fb (a : Nat) (b : Byte) : (s.memWrite a b).fb = s.fb := rfl
@[simp] theorem State.memWrite_dirty (a : Nat) (b : Byte) : (s.memWrite a b).dirty = s.dirty := rfl
@[simp] theorem State.memWrite_key (a : Nat) (b : Byte) : (s.memWrite a b).key = s.key := rfl
@[simp] theorem State.memWrite_fault (a : Nat) (b : Byte) : (s.memWrite a b).fault = s.fault := rfl
@[simp] theorem State.memWrite_font (a : Nat) (b : Byte) : (s.memWrite a b).font = s.font := rfl
@[simp] theorem State.memWrite_draws (a : Nat) (b : Byte) : (s.memWrite a b).draws = s.draws := rfl
@[simp] theorem State.memWrite_reg (a : Nat) (b : Byte) (y : Reg) : (s.memWrite a b).reg y = s.reg y := rfl

/-! ### `setReg` -/

@[simp] theorem State.setReg_mem (x : Reg) (b : Byte) : (s.setReg x b).mem = s.mem := rfl
@[simp] theorem State.setReg_v (x : Reg) (b : Byte) : (s.setReg x b).v = s.v.set x.toNat b x.isLt := rfl
@[simp] theorem State.setReg_i (x : Reg) (b : Byte) : (s.setReg x b).i = s.i := rfl
@[simp] theorem State.setReg_pc (x : Reg) (b : Byte) : (s.setReg x b).pc = s.pc := rfl
@[simp] theorem State.setReg_sp (x : Reg) (b : Byte) : (s.setReg x b).sp = s.sp := rfl
@[simp] theorem State.setReg_stack (x : Reg) (b : Byte) : (s.setReg x b).stack = s.stack := rfl
@[simp] theorem State.setReg_dt (x : Reg) (b : Byte) : (s.setReg x b).dt = s.dt := rfl
@[simp] theorem State.setReg_st (x : Reg) (b : Byte) : (s.setReg x b).st = s.st := rfl
@[simp] theorem State.setReg_fb (x : Reg) (b : Byte) : (s.setReg x b).fb = s.fb := rfl
@[simp] theorem State.setReg_dirty (x : Reg) (b : Byte) : (s.setReg x b).dirty = s.dirty := rfl
@[simp] theorem State.setReg_key (x : Reg) (b : Byte) : (s.setReg x b).key = s.key := rfl
@[simp] theorem State.setReg_fault (x : Reg) (b : Byte) : (s.setReg x b).fault = s.fault := rfl
@[simp] theorem State.setReg_font (x : Reg) (b : Byte) : (s.setReg x b).font = s.font := rfl
@[simp] theorem State.setReg_draws (x : Reg) (b : Byte) : (s.setReg x b).draws = s.draws := rfl
@[simp] theorem State.setReg_memRead (x : Reg) (b : Byte) (n : Nat) : (s.setReg x b).memRead n = s.memRead n := rfl

/-! ### `jump` -/

@[simp] theorem State.jump_mem (n : Nat) : (s.jump n).mem = s.mem := rfl
@[simp] theorem State.jump_v (n : Nat) : (s.jump n).v = s.v := rfl
@[simp] theorem State.jump_i (n : Nat) : (s.jump n).i = s.i := rfl
@[simp] theorem State.jump_pc (n : Nat) : (s.jump n).pc = addr12 n := rfl
@[simp] theorem State.jump_sp (n : Nat) : (s.jump n).sp = s.sp := rfl
@[simp] theorem State.jump_stack (n : Nat) : (s.jump n).stack = s.stack := rfl
@[simp] theorem State.jump_dt (n : Nat) : (s.jump n).dt = s.dt := rfl
@[simp] theorem State.jump_st (n : Nat) : (s.jump n).st = s.st := rfl
@[simp] theorem State.jump_fb (n : Nat) : (s.jump n).fb = s.fb := rfl
@[simp] theorem State.jump_dirty (n : Nat) : (s.jump n).dirty = s.dirty := rfl
@[simp] theorem State.jump_key (n : Nat) : (s.jump n).key = s.key := rfl
@[simp] theorem State.jump_fault (n : Nat) : (s.jump n).fault = s.fault := rfl
@[simp] theorem State.jump_font (n : Nat) : (s.jump n).font = s.font := rfl
@[simp] theorem State.jump_draws (n : Nat) : (s.jump n).draws = s.draws := rfl
@[simp] theorem State.jump_reg (n : Nat) (y : Reg) : (s.jump n).reg y = s.reg y := rfl
@[simp] theorem State.jump_memRead (n : Nat) (a : Nat) : (s.jump n).memRead a = s.memRead a := rfl

/-! ### `advance` -/

@[simp] theorem State.advance_mem (k : Nat) : (s.advance k).mem = s.mem := rfl
@[simp] theorem State.advance_v (k : Nat) : (s.advance k).v = s.v := rfl
@[simp] theorem State.advance_i (k : Nat) : (s.advance k).i = s.i := rfl
@[simp] theorem State.advance_pc (k : Nat) : (s.advance k).pc = addr12 (s.pc.toNat + k) := rfl
@[simp] theorem State.advance_sp (k : Nat) : (s.advance k).sp = s.sp := rfl
@[simp] theorem State.advance_stack (k : Nat) : (s.advance k).stack = s.stack := rfl
@[simp] theorem State.advance_dt (k : Nat) : (s.advance k).dt = s.dt := rfl
@[simp] theorem State.advance_st (k : Nat) : (s.advance k).st = s.st := rfl
@[simp] theorem State.advance_fb (k : Nat) : (s.advance k).fb = s.fb := rfl
@[simp] theorem State.advance_dirty (k : Nat) : (s.advance k).dirty = s.dirty := rfl
@[simp] theorem State.advance_key (k : Nat) : (s.advance k).key = s.key := rfl
@[simp] theorem State.advance_fault (k : Nat) : (s.advance k).fault = s.fault := rfl
@[simp] theorem State.advance_font (k : Nat) : (s.advance k).font = s.font := rfl
@[simp] theorem State.advance_draws (k : Nat) : (s.advance k).draws = s.draws := rfl
@[simp] theorem State.advance_reg (k : Nat) (y : Reg) : (s.advance k).reg y = s.reg y := rfl
@[simp] theorem State.advance_memRead (k : Nat) (n : Nat) : (s.advance k).memRead n = s.memRead n := rfl

/-! ### `setI` -/

@[simp] theorem State.setI_mem (n : Nat) : (s.setI n).mem = s.mem := rfl
@[simp] theorem State.setI_v (n : Nat) : (s.setI n).v = s.v := rfl
@[simp] theorem State.setI_i (n : Nat) : (s.setI n).i = addr12 n := rfl
@[simp] theorem State.setI_pc (n : Nat) : (s.setI n).pc = s.pc := rfl
@[simp] theorem State.setI_sp (n : Nat) : (s.setI n).sp = s.sp := rfl
@[simp] theorem State.setI_stack (n : Nat) : (s.setI n).stack = s.stack := rfl
@[simp] theorem State.setI_dt (n : Nat) : (s.setI n).dt = s.dt := rfl
@[simp] theorem State.setI_st (n : Nat) : (s.setI n).st = s.st := rfl
@[simp] theorem State.setI_fb (n : Nat) : (s.setI n).fb = s.fb := rfl
@[simp] theorem State.setI_dirty (n : Nat) : (s.setI n).dirty = s.dirty := rfl
@[simp] theorem State.setI_key (n : Nat) : (s.setI n).key = s.key := rfl
@[simp] theorem State.setI_fault (n : Nat) : (s.setI n).fault = s.fault := rfl
@[simp] theorem State.setI_font (n : Nat) : (s.setI n).font = s.font := rfl
@[simp] theorem State.setI_draws (n : Nat) : (s.setI n).draws = s.draws := rfl
@[simp] theorem State.setI_reg (n : Nat) (y : Reg) : (s.setI n).reg y = s.reg y := rfl
@[simp] theorem State.setI_memRead (n : Nat) (a : Nat) : (s.setI n).memRead a = s.memRead a := rfl

/-! ### `setDt` -/

@[simp] theorem State.setDt_mem (b : Byte) : (s.setDt b).mem = s.mem := rfl
@[simp] theorem State.setDt_v (b : Byte) : (s.setDt b).v = s.v := rfl
@[simp] theorem State.setDt_i (b : Byte) : (s.setDt b).i = s.i := rfl
@[simp] theorem State.setDt_pc (b : Byte) : (s.setDt b).pc = s.pc := rfl
@[simp] theorem State.setDt_sp (b : Byte) : (s.setDt b).sp = s.sp := rfl
@[simp] theorem State.setDt_stack (b : Byte) : (s.setDt b).stack = s.stack := rfl
@[simp] theorem State.setDt_dt (b : Byte) : (s.setDt b).dt = b := rfl
@[simp] theorem State.setDt_st (b : Byte) : (s.setDt b).st = s.st := rfl
@[simp] theorem State.setDt_fb (b : Byte) : (s.setDt b).fb = s.fb := rfl
@[simp] theorem State.setDt_dirty (b : Byte) : (s.setDt b).dirty = s.dirty := rfl
@[simp] theorem State.setDt_key (b : Byte) : (s.setDt b).key = s.key := rfl
@[simp] theorem State.setDt_fault (b : Byte) : (s.setDt b).fault = s.fault := rfl
@[simp] theorem State.setDt_font (b : Byte) : (s.setDt b).font = s.font := rfl
@[simp] theorem State.setDt_draws (b : Byte) : (s.setDt b).draws = s.draws := rfl
@[simp] theorem State.setDt_reg (b : Byte) (y : Reg) : (s.setDt b).reg y = s.reg y := rfl
@[simp] theorem State.setDt_memRead (b : Byte) (n : Nat) : (s.setDt b).memRead n = s.memRead n := rfl

/-! ### `setSt` -/

@[simp] theorem State.setSt_mem (b : Byte) : (s.setSt b).mem = s.mem := rfl
@[simp] theorem State.setSt_v (b : Byte) : (s.setSt b).v = s.v := rfl
@[simp] theorem State.setSt_i (b : Byte) : (s.setSt b).i = s.i := rfl
@[simp] theorem State.setSt_pc (b : Byte) : (s.setSt b).pc = s.pc := rfl
@[simp] theorem State.setSt_sp (b : Byte) : (s.setSt b).sp = s.sp := rfl
@[simp] theorem State.setSt_stack (b : Byte) : (s.setSt b).stack = s.stack := rfl
@[simp] theorem State.setSt_dt (b : Byte) : (s.setSt b).dt = s.dt := rfl
@[simp] theorem State.setSt_st (b : Byte) : (s.setSt b).st = b := rfl
@[simp] theorem State.setSt_fb (b : Byte) : (s.setSt b).fb = s.fb := rfl
@[simp] theorem State.setSt_dirty (b : Byte) : (s.setSt b).dirty = s.dirty := rfl
@[simp] theorem State.setSt_key (b : Byte) : (s.setSt b).key = s.key := rfl
@[simp] theorem State.setSt_fault (b : Byte) : (s.setSt b).fault = s.fault := rfl
@[simp] theorem State.setSt_font (b : Byte) : (s.setSt b).font = s.font := rfl
@[simp] theorem State.setSt_draws (b : Byte) : (s.setSt b).draws = s.draws := rfl
@[simp] theorem State.setSt_reg (b : Byte) (y : Reg) : (s.setSt b).reg y = s.reg y := rfl
@[simp] theorem State.setSt_memRead (b : Byte) (n : Nat) : (s.setSt b).memRead n = s.memRead n := rfl

/-! ### `setFb` -/

@[simp] theorem State.setFb_mem (fb : Framebuffer) (d : Bool) : (s.setFb fb d).mem = s.mem := rfl
@[simp] theorem State.setFb_v (fb : Framebuffer) (d : Bool) : (s.setFb fb d).v = s.v := rfl
@[simp] theorem State.setFb_i (fb : Framebuffer) (d : Bool) : (s.setFb fb d).i = s.i := rfl
@[simp] theorem State.setFb_pc (fb : Framebuffer) (d : Bool) : (s.setFb fb d).pc = s.pc := rfl
@[simp] theorem State.setFb_sp (fb : Framebuffer) (d : Bool) : (s.setFb fb d).sp = s.sp := rfl
@[simp] theorem State.setFb_stack (fb : Framebuffer) (d : Bool) : (s.setFb fb d).stack = s.stack := rfl
@[simp] theorem State.setFb_dt (fb : Framebuffer) (d : Bool) : (s.setFb fb d).dt = s.dt := rfl
@[simp] theorem State.setFb_st (fb : Framebuffer) (d : Bool) : (s.setFb fb d).st = s.st := rfl
@[simp] theorem State.setFb_fb (fb : Framebuffer) (d : Bool) : (s.setFb fb d).fb = fb := rfl
@[simp] theorem State.setFb_dirty (fb : Framebuffer) (d : Bool) : (s.setFb fb d).dirty = d := rfl
@[simp] theorem State.setFb_key (fb : Framebuffer) (d : Bool) : (s.setFb fb d).key = s.key := rfl
@[simp] theorem State.setFb_fault (fb : Framebuffer) (d : Bool) : (s.setFb fb d).fault = s.fault := rfl
@[simp] theorem State.setFb_font (fb : Framebuffer) (d : Bool) : (s.setFb fb d).font = s.font := rfl
@[simp] theorem State.setFb_draws (fb : Framebuffer) (d : Bool) : (s.setFb fb d).draws = s.draws := rfl
@[simp] theorem State.setFb_reg (fb : Framebuffer) (d : Bool) (y : Reg) : (s.setFb fb d).reg y = s.reg y := rfl
@[simp] theorem State.setFb_memRead (fb : Framebuffer) (d : Bool) (n : Nat) : (s.setFb fb d).memRead n = s.memRead n := rfl

/-! ### `setFault` -/

@[simp] theorem State.setFault_mem (f : Option Fault) : (s.setFault f).mem = s.mem := rfl
@[simp] theorem State.setFault_v (f : Option Fault) : (s.setFault f).v = s.v := rfl
@[simp] theorem State.setFault_i (f : Option Fault) : (s.setFault f).i = s.i := rfl
@[simp] theorem State.setFault_pc (f : Option Fault) : (s.setFault f).pc = s.pc := rfl
@[simp] theorem State.setFault_sp (f : Option Fault) : (s.setFault f).sp = s.sp := rfl
@[simp] theorem State.setFault_stack (f : Option Fault) : (s.setFault f).stack = s.stack := rfl
@[simp] theorem State.setFault_dt (f : Option Fault) : (s.setFault f).dt = s.dt := rfl
@[simp] theorem State.setFault_st (f : Option Fault) : (s.setFault f).st = s.st := rfl
@[simp] theorem State.setFault_fb (f : Option Fault) : (s.setFault f).fb = s.fb := rfl
@[simp] theorem State.setFault_dirty (f : Option Fault) : (s.setFault f).dirty = s.dirty := rfl
@[simp] theorem State.setFault_key (f : Option Fault) : (s.setFault f).key = s.key := rfl
@[simp] theorem State.setFault_fault (f : Option Fault) : (s.setFault f).fault = f := rfl
@[simp] theorem State.setFault_font (f : Option Fault) : (s.setFault f).font = s.font := rfl
@[simp] theorem State.setFault_draws (f : Option Fault) : (s.setFault f).draws = s.draws := rfl
@[simp] theorem State.setFault_reg (f : Option Fault) (y : Reg) : (s.setFault f).reg y = s.reg y := rfl
@[simp] theorem State.setFault_memRead (f : Option Fault) (n : Nat) : (s.setFault f).memRead n = s.memRead n := rfl

/-! ### `countDraw` -/

@[simp] theorem State.countDraw_mem : (s.countDraw).mem = s.mem := rfl
@[simp] theorem State.countDraw_v : (s.countDraw).v = s.v := rfl
@[simp] theorem State.countDraw_i : (s.countDraw).i = s.i := rfl
@[simp] theorem State.countDraw_pc : (s.countDraw).pc = s.pc := rfl
@[simp] theorem State.countDraw_sp : (s.countDraw).sp = s.sp := rfl
@[simp] theorem State.countDraw_stack : (s.countDraw).stack = s.stack := rfl
@[simp] theorem State.countDraw_dt : (s.countDraw).dt = s.dt := rfl
@[simp] theorem State.countDraw_st : (s.countDraw).st = s.st := rfl
@[simp] theorem State.countDraw_fb : (s.countDraw).fb = s.fb := rfl
@[simp] theorem State.countDraw_dirty : (s.countDraw).dirty = s.dirty := rfl
@[simp] theorem State.countDraw_key : (s.countDraw).key = s.key := rfl
@[simp] theorem State.countDraw_fault : (s.countDraw).fault = s.fault := rfl
@[simp] theorem State.countDraw_font : (s.countDraw).font = s.font := rfl
@[simp] theorem State.countDraw_draws : (s.countDraw).draws = s.draws + 1 := rfl
@[simp] theorem State.countDraw_reg (y : Reg) : (s.countDraw).reg y = s.reg y := rfl
@[simp] theorem State.countDraw_memRead (n : Nat) : (s.countDraw).memRead n = s.memRead n := rfl

/-! ### `setKey` -/

@[simp] theorem State.setKey_mem (k : BitVec 4) (d : Bool) : (s.setKey k d).mem = s.mem := rfl
@[simp] theorem State.setKey_v (k : BitVec 4) (d : Bool) : (s.setKey k d).v = s.v := rfl
@[simp] theorem State.setKey_i (k : BitVec 4) (d : Bool) : (s.setKey k d).i = s.i := rfl
@[simp] theorem State.setKey_pc (k : BitVec 4) (d : Bool) : (s.setKey k d).pc = s.pc := rfl
@[simp] theorem State.setKey_sp (k : BitVec 4) (d : Bool) : (s.setKey k d).sp = s.sp := rfl
@[simp] theorem State.setKey_stack (k : BitVec 4) (d : Bool) : (s.setKey k d).stack = s.stack := rfl
@[simp] theorem State.setKey_dt (k : BitVec 4) (d : Bool) : (s.setKey k d).dt = s.dt := rfl
@[simp] theorem State.setKey_st (k : BitVec 4) (d : Bool) : (s.setKey k d).st = s.st := rfl
@[simp] theorem State.setKey_fb (k : BitVec 4) (d : Bool) : (s.setKey k d).fb = s.fb := rfl
@[simp] theorem State.setKey_dirty (k : BitVec 4) (d : Bool) : (s.setKey k d).dirty = s.dirty := rfl
@[simp] theorem State.setKey_key (k : BitVec 4) (d : Bool) : (s.setKey k d).key = s.key.set k.toNat d k.isLt := rfl
@[simp] theorem State.setKey_fault (k : BitVec 4) (d : Bool) : (s.setKey k d).fault = s.fault := rfl
@[simp] theorem State.setKey_font (k : BitVec 4) (d : Bool) : (s.setKey k d).font = s.font := rfl
@[simp] theorem State.setKey_draws (k : BitVec 4) (d : Bool) : (s.setKey k d).draws = s.draws := rfl
@[simp] theorem State.setKey_reg (k : BitVec 4) (d : Bool) (y : Reg) : (s.setKey k d).reg y = s.reg y := rfl
@[simp] theorem State.setKey_memRead (k : BitVec 4) (d : Bool) (n : Nat) : (s.setKey k d).memRead n = s.memRead n := rfl

/-! ### registers and the reduction mod 4096 -/

@[simp] theorem State.setReg_reg (x : Reg) (b : Byte) (y : Reg) :
    (s.setReg x b).reg y = if y = x then b else s.reg y := by
  unfold State.reg
  rw [State.setReg_v, Vector.getElem_set]
  by_cases h : y = x
  · simp [h]
  · have : x.toNat ≠ y.toNat := fun e => h (BitVec.eq_of_toNat_eq e.symm)
    simp [h, this]

@[simp] theorem addr12_toNat (n : Nat) : (addr12 n).toNat = n % 4096 := by
  simp only [addr12, BitVec.toNat_ofNat]
  omega

theorem addr12_lt (n : Nat) : (addr12 n).toNat < 4096 := by
  rw [addr12_toNat]
  omega

/-- Two states with the same fields but for V have the same V when every register reads the same. -/
theorem v_ext {v w : Vector Byte 16} (h : ∀ r : Reg, v[r.toNat]'r.isLt = w[r.toNat]'r.isLt) : v = w := by
  apply Vector.ext
  intro k hk
  have := h (BitVec.ofNat 4 k)
  have e : (BitVec.ofNat 4 k).toNat = k := by
    simp only [BitVec.toNat_ofNat]
    omega
  simpa only [e] using this

end Sys2Proof.Machine
end

