-- ==== Sys2Proof/Laws/Memory.lean ====
section
/-! SUPPORT. Memory as cells: reading after writing, the canonical form and that a write keeps it, and that canonical
memories that read alike are equal data (20_memory.md R62, R69). -/

namespace Sys2Proof.Machine

theorem Memory.lookup_erase (a b : Nat) (m : Memory) :
    Memory.lookup a (Memory.erase b m) = if a = b then none else Memory.lookup a m := by
  induction m with
  | nil => simp [Memory.erase, Memory.lookup]
  | cons c m ih =>
    by_cases hc : c.1 = b
    · have : Memory.erase b (c :: m) = Memory.erase b m := by simp [Memory.erase, hc]
      rw [this, ih]
      by_cases hab : a = b
      · simp [hab]
      · have : c.1 ≠ a := by omega
        simp [Memory.lookup, hab, this]
    · have : Memory.erase b (c :: m) = c :: Memory.erase b m := by simp [Memory.erase, hc]
      rw [this, Memory.lookup, ih]
      by_cases hab : a = b
      · have : c.1 ≠ a := by omega
        simp [hab, hc]
      · simp [Memory.lookup, hab]

theorem Memory.lookup_insert (a b : Nat) (v : Byte) (m : Memory) (h : Memory.lookup b m = none) :
    Memory.lookup a (Memory.insert b v m) = if a = b then some v else Memory.lookup a m := by
  induction m with
  | nil =>
    by_cases hab : a = b
    · simp [Memory.insert, Memory.lookup, hab]
    · have : b ≠ a := fun e => hab e.symm
      simp [Memory.insert, Memory.lookup, hab, this]
  | cons c m ih =>
    simp only [Memory.lookup] at h
    by_cases hc : c.1 = b
    · simp [hc] at h
    simp only [hc, if_false] at h
    simp only [Memory.insert]
    split
    · by_cases hab : a = b
      · simp [Memory.lookup, hab]
      · have : b ≠ a := fun e => hab e.symm
        simp [Memory.lookup, hab, this]
    · simp only [Memory.lookup, ih h]
      by_cases hab : a = b
      · have : c.1 ≠ a := by omega
        simp [hab, hc]
      · simp [hab]

/-- A read after a write gives the byte written at that address mod 4096, and elsewhere what it gave before; in every
memory, canonical or not. -/
theorem Memory.read_write (font : Font) (m : Memory) (addr : Nat) (b : Byte) (a : Nat) :
    Memory.read font (Memory.write font m addr b) a =
      if a % 4096 = addr % 4096 then b else Memory.read font m a := by
  unfold Memory.read Memory.write
  by_cases hb : b = Memory.unlisted font (addr % 4096)
  · rw [if_pos hb, Memory.lookup_erase]
    by_cases ha : a % 4096 = addr % 4096
    · simp [ha, hb]
    · simp [ha]
  · rw [if_neg hb, Memory.lookup_insert _ _ _ _ (by simp [Memory.lookup_erase]), Memory.lookup_erase]
    by_cases ha : a % 4096 = addr % 4096
    · simp [ha]
    · simp [ha]

theorem Memory.mem_insert (a : Nat) (b : Byte) (m : Memory) (c : Host.Cell) :
    c ∈ Memory.insert a b m ↔ c = (a, b) ∨ c ∈ m := by
  induction m with
  | nil => simp [Memory.insert]
  | cons d m ih =>
    simp only [Memory.insert]
    split
    · simp
    · simp only [List.mem_cons, ih]
      tauto

theorem Memory.insert_sorted (a : Nat) (b : Byte) (m : Memory) (hs : m.Pairwise (fun c d => c.1 < d.1))
    (ha : ∀ c ∈ m, c.1 ≠ a) : (Memory.insert a b m).Pairwise (fun c d => c.1 < d.1) := by
  induction m with
  | nil => simp [Memory.insert]
  | cons c m ih =>
    rw [List.pairwise_cons] at hs
    simp only [Memory.insert]
    split
    · rename_i h
      rw [List.pairwise_cons, List.pairwise_cons]
      refine ⟨fun d hd => ?_, hs⟩
      rcases List.mem_cons.1 hd with rfl | hd
      · exact h
      · exact Nat.lt_trans h (hs.1 d hd)
    · rename_i h
      rw [List.pairwise_cons]
      refine ⟨fun d hd => ?_, ih hs.2 fun d hd => ha d (List.mem_cons_of_mem _ hd)⟩
      rcases (Memory.mem_insert a b m d).1 hd with rfl | hd
      · have := ha c List.mem_cons_self
        show c.1 < a
        omega
      · exact hs.1 d hd

/-- Every write keeps the canonical form. -/
theorem Memory.write_wf {font : Font} {m : Memory} (h : Memory.wf font m) (addr : Nat) (b : Byte) :
    Memory.wf font (Memory.write font m addr b) := by
  have he : Memory.wf font (Memory.erase (addr % 4096) m) :=
    ⟨h.1.sublist List.filter_sublist, fun c hc => h.2 c (List.mem_filter.1 hc).1⟩
  unfold Memory.write
  split
  · exact he
  · rename_i hb
    refine ⟨Memory.insert_sorted _ _ _ he.1 fun c hc => ?_, fun c hc => ?_⟩
    · have := (List.mem_filter.1 hc).2
      simpa using this
    · rcases (Memory.mem_insert _ _ _ c).1 hc with rfl | hc
      · exact ⟨Nat.mod_lt _ (by omega), hb⟩
      · exact he.2 c hc

theorem Memory.nil_wf (font : Font) : Memory.wf font [] := by simp [Memory.wf]

theorem Memory.lookup_eq_none {a : Nat} {m : Memory} (h : ∀ c ∈ m, c.1 ≠ a) : Memory.lookup a m = none := by
  induction m with
  | nil => rfl
  | cons c m ih =>
    simp only [Memory.lookup, if_neg (h c List.mem_cons_self)]
    exact ih fun d hd => h d (List.mem_cons_of_mem _ hd)

theorem Memory.lookup_of_mem {m : Memory} (hs : m.Pairwise (fun c d => c.1 < d.1)) {c : Host.Cell} (hc : c ∈ m) :
    Memory.lookup c.1 m = some c.2 := by
  induction m with
  | nil => simp at hc
  | cons d m ih =>
    rw [List.pairwise_cons] at hs
    simp only [Memory.lookup]
    rcases List.mem_cons.1 hc with rfl | hm
    · simp
    · have := hs.1 c hm
      rw [if_neg (by omega)]
      exact ih hs.2 hm

theorem Memory.mem_of_lookup {a : Nat} {b : Byte} {m : Memory} (h : Memory.lookup a m = some b) : (a, b) ∈ m := by
  induction m with
  | nil => simp [Memory.lookup] at h
  | cons c m ih =>
    simp only [Memory.lookup] at h
    split at h
    · rename_i hc
      cases h
      cases hc
      exact List.mem_cons_self
    · exact List.mem_cons_of_mem _ (ih h)

theorem Memory.mem_of_reads {font : Font} {m m' : Memory} (h : Memory.wf font m)
    (hr : ∀ a, Memory.read font m a = Memory.read font m' a) {c : Host.Cell} (hc : c ∈ m) : c ∈ m' := by
  obtain ⟨hlt, hne⟩ := h.2 c hc
  have e := hr c.1
  unfold Memory.read at e
  rw [Nat.mod_eq_of_lt hlt, Memory.lookup_of_mem h.1 hc, Option.getD_some] at e
  cases hl : Memory.lookup c.1 m' with
  | none =>
    rw [hl] at e
    exact absurd e hne
  | some b =>
    rw [hl, Option.getD_some] at e
    have := Memory.mem_of_lookup hl
    rw [← e] at this
    exact this

/-- Canonical memories that read alike are equal data. -/
theorem Memory.eq_of_reads {font : Font} {m m' : Memory} (h : Memory.wf font m) (h' : Memory.wf font m')
    (hr : ∀ a, Memory.read font m a = Memory.read font m' a) : m = m' := by
  have nodup : ∀ {l : Memory}, l.Pairwise (fun c d => c.1 < d.1) → l.Nodup := fun hl =>
    hl.imp fun {c d} hcd (e : c = d) => by
      rw [e] at hcd
      exact Nat.lt_irrefl _ hcd
  have hp : m.Perm m' :=
    (List.perm_ext_iff_of_nodup (nodup h.1) (nodup h'.1)).2 fun c =>
      ⟨Memory.mem_of_reads h hr, Memory.mem_of_reads h' fun a => (hr a).symm⟩
  exact hp.eq_of_pairwise (fun _ _ _ _ hab hba => absurd (Nat.lt_trans hab hba) (Nat.lt_irrefl _)) h.1 h'.1

end Sys2Proof.Machine
end

