-- ==== Sys2Proof/Laws/Ops.lean ====
section
/-! SUPPORT. One lemma per shared operation that says everything it can do: byte sequences to and from memory, block
loads, the stack, the latch, the end of an instruction, the least key. -/

namespace Sys2Proof.Machine

/-! ## Bytes to and from memory -/

theorem State.memRead_memWrite (s : State) (addr : Nat) (b : Byte) (a : Nat) :
    (s.memWrite addr b).memRead a = if a % 4096 = addr % 4096 then b else s.memRead a :=
  Memory.read_write s.font s.mem addr b a

/-- The address of a read counts mod 4096 only. -/
theorem State.memRead_mod (s : State) (a : Nat) : s.memRead (a % 4096) = s.memRead a := by
  simp [State.memRead, Memory.read]

theorem State.memRead_congr (s : State) {a b : Nat} (h : a % 4096 = b % 4096) : s.memRead a = s.memRead b := by
  rw [← s.memRead_mod a, h, s.memRead_mod b]

/-- A write of bytes changes memory alone. -/
theorem State.writeBytes_eq (s : State) (addr : Nat) (bs : List Byte) :
    s.writeBytes addr bs = s.setMem (s.writeBytes addr bs).mem := by
  induction bs generalizing s addr with
  | nil => rfl
  | cons b bs ih => rw [State.writeBytes, ih]; rfl

/-! ### what a write of bytes leaves as it was -/

@[simp] theorem State.writeBytes_v (s : State) (addr : Nat) (bs : List Byte) : (s.writeBytes addr bs).v = s.v := by
  rw [State.writeBytes_eq, State.setMem_v]
@[simp] theorem State.writeBytes_i (s : State) (addr : Nat) (bs : List Byte) : (s.writeBytes addr bs).i = s.i := by
  rw [State.writeBytes_eq, State.setMem_i]
@[simp] theorem State.writeBytes_pc (s : State) (addr : Nat) (bs : List Byte) : (s.writeBytes addr bs).pc = s.pc := by
  rw [State.writeBytes_eq, State.setMem_pc]
@[simp] theorem State.writeBytes_sp (s : State) (addr : Nat) (bs : List Byte) : (s.writeBytes addr bs).sp = s.sp := by
  rw [State.writeBytes_eq, State.setMem_sp]
@[simp] theorem State.writeBytes_stack (s : State) (addr : Nat) (bs : List Byte) : (s.writeBytes addr bs).stack = s.stack := by
  rw [State.writeBytes_eq, State.setMem_stack]
@[simp] theorem State.writeBytes_dt (s : State) (addr : Nat) (bs : List Byte) : (s.writeBytes addr bs).dt = s.dt := by
  rw [State.writeBytes_eq, State.setMem_dt]
@[simp] theorem State.writeBytes_st (s : State) (addr : Nat) (bs : List Byte) : (s.writeBytes addr bs).st = s.st := by
  rw [State.writeBytes_eq, State.setMem_st]
@[simp] theorem State.writeBytes_fb (s : State) (addr : Nat) (bs : List Byte) : (s.writeBytes addr bs).fb = s.fb := by
  rw [State.writeBytes_eq, State.setMem_fb]
@[simp] theorem State.writeBytes_dirty (s : State) (addr : Nat) (bs : List Byte) : (s.writeBytes addr bs).dirty = s.dirty := by
  rw [State.writeBytes_eq, State.setMem_dirty]
@[simp] theorem State.writeBytes_key (s : State) (addr : Nat) (bs : List Byte) : (s.writeBytes addr bs).key = s.key := by
  rw [State.writeBytes_eq, State.setMem_key]
@[simp] theorem State.writeBytes_fault (s : State) (addr : Nat) (bs : List Byte) : (s.writeBytes addr bs).fault = s.fault := by
  rw [State.writeBytes_eq, State.setMem_fault]
@[simp] theorem State.writeBytes_font (s : State) (addr : Nat) (bs : List Byte) : (s.writeBytes addr bs).font = s.font := by
  rw [State.writeBytes_eq, State.setMem_font]
@[simp] theorem State.writeBytes_draws (s : State) (addr : Nat) (bs : List Byte) : (s.writeBytes addr bs).draws = s.draws := by
  rw [State.writeBytes_eq, State.setMem_draws]
@[simp] theorem State.writeBytes_reg (s : State) (addr : Nat) (bs : List Byte) (r : Reg) :
    (s.writeBytes addr bs).reg r = s.reg r := by
  rw [State.writeBytes_eq, State.setMem_reg]

/-- The written memory read through the font of the state it was written in. -/
theorem State.read_writeBytes_mem (s : State) (addr : Nat) (bs : List Byte) (a : Nat) :
    Memory.read s.font (s.writeBytes addr bs).mem a = (s.writeBytes addr bs).memRead a := by
  rw [State.memRead, State.writeBytes_font]

/-- Outside the written addresses a byte reads as before. -/
theorem State.memRead_writeBytes_of_ne (s : State) (addr : Nat) (bs : List Byte) (a : Nat)
    (h : ∀ k < bs.length, a % 4096 ≠ (addr + k) % 4096) : (s.writeBytes addr bs).memRead a = s.memRead a := by
  induction bs generalizing s addr with
  | nil => rfl
  | cons b bs ih =>
    have h0 : a % 4096 ≠ addr % 4096 := h 0 (by simp)
    rw [State.writeBytes, ih, State.memRead_memWrite, if_neg h0]
    intro k hk
    have := h (k + 1) (by simpa using hk)
    rwa [show addr + 1 + k = addr + (k + 1) by omega]

/-- At most 4096 bytes written: the k-th is read back at its address. -/
theorem State.memRead_writeBytes (s : State) (addr : Nat) (bs : List Byte) (hl : bs.length ≤ 4096) (k : Nat)
    (hk : k < bs.length) (a : Nat) (ha : a % 4096 = (addr + k) % 4096) : (s.writeBytes addr bs).memRead a = bs[k] := by
  induction bs generalizing s addr k with
  | nil => simp at hk
  | cons b bs ih =>
    simp only [List.length_cons] at hl hk
    rw [State.writeBytes]
    cases k with
    | zero =>
      rw [State.memRead_writeBytes_of_ne _ _ _ _ fun j hj => by omega, State.memRead_memWrite,
        if_pos (by simpa using ha)]
      rfl
    | succ k =>
      rw [ih (s.memWrite addr b) (addr + 1) (by omega) k (by omega) (by rw [ha]; congr 1; omega)]
      rfl

theorem State.readBytes_length (s : State) (addr n : Nat) : (s.readBytes addr n).length = n := by
  simp [State.readBytes]

theorem State.readBytes_get (s : State) (addr n k : Nat) (hk : k < (s.readBytes addr n).length) :
    (s.readBytes addr n)[k] = s.memRead (addr + k) := by
  simp [State.readBytes]

theorem State.writeBytes_wf (s : State) (addr : Nat) (bs : List Byte) (h : Memory.wf s.font s.mem) :
    Memory.wf s.font (s.writeBytes addr bs).mem := by
  induction bs generalizing s addr with
  | nil => exact h
  | cons b bs ih => exact ih (s.memWrite addr b) (addr + 1) (Memory.write_wf h addr b)

/-- The two bytes a CYCLE fetches. -/
theorem State.fetch_writeBytes (s : State) (hi lo : Byte) :
    (s.writeBytes s.pc.toNat [hi, lo]).fetch = hi ++ lo := by
  have h0 : (s.writeBytes s.pc.toNat [hi, lo]).memRead s.pc.toNat = hi :=
    State.memRead_writeBytes s _ [hi, lo] (by simp) 0 (by simp) _ rfl
  have h1 : (s.writeBytes s.pc.toNat [hi, lo]).memRead (s.pc.toNat + 1) = lo :=
    State.memRead_writeBytes s _ [hi, lo] (by simp) 1 (by simp) _ rfl
  rw [State.fetch, show (s.writeBytes s.pc.toNat [hi, lo]).pc = s.pc from rfl, h0, h1]

/-! ## Registers in a block -/

theorem State.regsUpTo_length (s : State) (x : Reg) : (s.regsUpTo x).length = x.toNat + 1 := by
  simp [State.regsUpTo]

theorem State.regsUpTo_get (s : State) (x : Reg) (j : Nat) (hj : j < (s.regsUpTo x).length) :
    (s.regsUpTo x)[j] = s.reg (BitVec.ofNat 4 j) := by
  simp [State.regsUpTo]

/-- A block load changes V alone. -/
theorem State.loadRegsFrom_eq (s : State) (addr k : Nat) :
    s.loadRegsFrom addr k = { s with v := (s.loadRegsFrom addr k).v } := by
  induction k with
  | zero => rfl
  | succ k ih => rw [State.loadRegsFrom, ih]; rfl

/-! ### what a block load leaves as it was -/

@[simp] theorem State.loadRegsFrom_mem (s : State) (addr k : Nat) : (s.loadRegsFrom addr k).mem = s.mem := by
  rw [State.loadRegsFrom_eq]
@[simp] theorem State.loadRegsFrom_i (s : State) (addr k : Nat) : (s.loadRegsFrom addr k).i = s.i := by
  rw [State.loadRegsFrom_eq]
@[simp] theorem State.loadRegsFrom_pc (s : State) (addr k : Nat) : (s.loadRegsFrom addr k).pc = s.pc := by
  rw [State.loadRegsFrom_eq]
@[simp] theorem State.loadRegsFrom_sp (s : State) (addr k : Nat) : (s.loadRegsFrom addr k).sp = s.sp := by
  rw [State.loadRegsFrom_eq]
@[simp] theorem State.loadRegsFrom_stack (s : State) (addr k : Nat) : (s.loadRegsFrom addr k).stack = s.stack := by
  rw [State.loadRegsFrom_eq]
@[simp] theorem State.loadRegsFrom_dt (s : State) (addr k : Nat) : (s.loadRegsFrom addr k).dt = s.dt := by
  rw [State.loadRegsFrom_eq]
@[simp] theorem State.loadRegsFrom_st (s : State) (addr k : Nat) : (s.loadRegsFrom addr k).st = s.st := by
  rw [State.loadRegsFrom_eq]
@[simp] theorem State.loadRegsFrom_fb (s : State) (addr k : Nat) : (s.loadRegsFrom addr k).fb = s.fb := by
  rw [State.loadRegsFrom_eq]
@[simp] theorem State.loadRegsFrom_dirty (s : State) (addr k : Nat) : (s.loadRegsFrom addr k).dirty = s.dirty := by
  rw [State.loadRegsFrom_eq]
@[simp] theorem State.loadRegsFrom_key (s : State) (addr k : Nat) : (s.loadRegsFrom addr k).key = s.key := by
  rw [State.loadRegsFrom_eq]
@[simp] theorem State.loadRegsFrom_fault (s : State) (addr k : Nat) : (s.loadRegsFrom addr k).fault = s.fault := by
  rw [State.loadRegsFrom_eq]
@[simp] theorem State.loadRegsFrom_font (s : State) (addr k : Nat) : (s.loadRegsFrom addr k).font = s.font := by
  rw [State.loadRegsFrom_eq]
@[simp] theorem State.loadRegsFrom_draws (s : State) (addr k : Nat) : (s.loadRegsFrom addr k).draws = s.draws := by
  rw [State.loadRegsFrom_eq]

/-- The registers below the count come from memory, the others are unchanged. -/
theorem State.loadRegsFrom_reg (s : State) (addr k : Nat) (hk : k ≤ 16) (r : Reg) :
    (s.loadRegsFrom addr k).reg r = if r.toNat < k then s.memRead (addr + r.toNat) else s.reg r := by
  induction k with
  | zero => rfl
  | succ k ih =>
    rw [State.loadRegsFrom, State.setReg_reg, ih (by omega)]
    have e : (BitVec.ofNat 4 k).toNat = k := by
      simp only [BitVec.toNat_ofNat]
      omega
    by_cases h : r = BitVec.ofNat 4 k
    · have : r.toNat = k := by rw [h, e]
      simp [h, e]
    · have : r.toNat ≠ k := fun e' => h (BitVec.eq_of_toNat_eq (by rw [e, e']))
      rw [if_neg h]
      by_cases h1 : r.toNat < k
      · rw [if_pos h1, if_pos (by omega)]
      · rw [if_neg h1, if_neg (by omega)]

/-! ## Stack and latch -/

/-- `push`: it fails exactly at SP = 16, and else writes the entry at SP and counts it. -/
theorem State.push_cases (s : State) (a : Word) :
    (s.sp.val = 16 ∧ s.push a = .error .stackOverflow) ∨
    (∃ h : s.sp.val < 16, s.push a = .ok { s with
      stack := s.stack.set s.sp.val a h, sp := ⟨s.sp.val + 1, by omega⟩ }) := by
  have := s.sp.isLt
  by_cases h : s.sp.val = 16
  · exact .inl ⟨h, by simp [State.push, h]⟩
  · exact .inr ⟨by omega, by simp [State.push, h]⟩

/-- `pop`: it fails exactly at SP = 0, and else gives the entry below SP. -/
theorem State.pop_cases (s : State) :
    (s.sp.val = 0 ∧ s.pop = .error .stackUnderflow) ∨
    (∃ h : 0 < s.sp.val, s.pop = .ok (s.stack[s.sp.val - 1]'(by have := s.sp.isLt; omega),
      { s with sp := ⟨s.sp.val - 1, by have := s.sp.isLt; omega⟩ })) := by
  by_cases h : s.sp.val = 0
  · exact .inl ⟨h, by simp [State.pop, h]⟩
  · exact .inr ⟨by omega, by simp [State.pop, h]⟩

theorem execCall_overflow (nnn : BitVec 12) (s : State) (h : s.sp.val = 16) :
    execCall nnn s = raise .stackOverflow s := by
  simp [execCall, State.push, h]

theorem execRet_underflow (s : State) (h : s.sp.val = 0) : execRet s = raise .stackUnderflow s := by
  simp [execRet, State.pop, h]

/-! ## Keys -/

/-- No key is reported exactly when none is down. -/
theorem State.lowestKey_none (s : State) : s.lowestKey = none ↔ ∀ k : BitVec 4, s.keyDown k = false := by
  unfold State.lowestKey State.keyDown
  rw [List.findIdx?_eq_none_iff]
  constructor
  · intro h k
    have := h (s.key[k.toNat]'k.isLt) (Vector.mem_toList_iff.2 (Vector.getElem_mem k.isLt))
    simpa using this
  · intro h x hx
    obtain ⟨j, hj, rfl⟩ := List.getElem_of_mem hx
    have hj' : j < 16 := by simpa using hj
    have := h (BitVec.ofNat 4 j)
    have e : (BitVec.ofNat 4 j).toNat = j := by
      simp only [BitVec.toNat_ofNat]
      omega
    simpa [e] using this

/-- The key reported is down and no lower one is. -/
theorem State.lowestKey_some (s : State) (k : Nat) :
    s.lowestKey = some k ↔
      ∃ h : k < 16, s.key[k] = true ∧ ∀ j : Nat, ∀ hj : j < k, s.key[j]'(by omega) = false := by
  unfold State.lowestKey
  rw [List.findIdx?_eq_some_iff_getElem]
  simp

end Sys2Proof.Machine
end

