-- ==== Sys2Proof/Laws/Inv.lean ====
section
/-! SUPPORT. Each named update keeps the invariant of Safety.lean, whatever the state. -/

namespace Sys2Proof.Machine

variable {s : State}

theorem State.Inv.setReg (h : s.Inv) (x : Reg) (b : Byte) : (s.setReg x b).Inv := ⟨h.pc, h.i, h.stack, h.mem⟩
theorem State.Inv.jump (h : s.Inv) (n : Nat) : (s.jump n).Inv := ⟨addr12_lt n, h.i, h.stack, h.mem⟩
theorem State.Inv.advance (h : s.Inv) (k : Nat) : (s.advance k).Inv := h.jump _
theorem State.Inv.setI (h : s.Inv) (n : Nat) : (s.setI n).Inv := ⟨h.pc, addr12_lt n, h.stack, h.mem⟩
theorem State.Inv.setDt (h : s.Inv) (b : Byte) : (s.setDt b).Inv := ⟨h.pc, h.i, h.stack, h.mem⟩
theorem State.Inv.setSt (h : s.Inv) (b : Byte) : (s.setSt b).Inv := ⟨h.pc, h.i, h.stack, h.mem⟩
theorem State.Inv.setFb (h : s.Inv) (fb : Framebuffer) (d : Bool) : (s.setFb fb d).Inv :=
  ⟨h.pc, h.i, h.stack, h.mem⟩
theorem State.Inv.setFault (h : s.Inv) (f : Option Fault) : (s.setFault f).Inv := ⟨h.pc, h.i, h.stack, h.mem⟩
theorem State.Inv.countDraw (h : s.Inv) : s.countDraw.Inv := ⟨h.pc, h.i, h.stack, h.mem⟩
theorem State.Inv.setKey (h : s.Inv) (k : BitVec 4) (d : Bool) : (s.setKey k d).Inv := ⟨h.pc, h.i, h.stack, h.mem⟩

theorem State.Inv.memWrite (h : s.Inv) (a : Nat) (b : Byte) : (s.memWrite a b).Inv :=
  ⟨h.pc, h.i, h.stack, Memory.write_wf h.mem a b⟩

theorem State.Inv.writeBytes (h : s.Inv) (a : Nat) (bs : List Byte) : (s.writeBytes a bs).Inv := by
  induction bs generalizing s a with
  | nil => exact h
  | cons b bs ih => exact ih (h.memWrite a b) (a + 1)

theorem State.Inv.loadRegsFrom (h : s.Inv) (a k : Nat) : (s.loadRegsFrom a k).Inv := by
  induction k with
  | zero => exact h
  | succ k ih => exact ih.setReg _ _

theorem State.Inv.push (h : s.Inv) {t : State} (e : s.push s.pc = .ok t) : t.Inv := by
  obtain ⟨-, e'⟩ | ⟨hsp, e'⟩ := s.push_cases s.pc
  · rw [e'] at e
    cases e
  · rw [e'] at e
    cases e
    refine ⟨h.pc, h.i, fun k => ?_, h.mem⟩
    show ((s.stack.set s.sp.val s.pc hsp)[k.val]).toNat < 4096
    rw [Vector.getElem_set]
    split
    · exact h.pc
    · exact h.stack k

theorem State.Inv.pop (h : s.Inv) {a : Word} {t : State} (e : s.pop = .ok (a, t)) : t.Inv := by
  obtain ⟨-, e'⟩ | ⟨hsp, e'⟩ := s.pop_cases
  · rw [e'] at e
    cases e
  · rw [e'] at e
    cases e
    exact ⟨h.pc, h.i, h.stack, h.mem⟩

end Sys2Proof.Machine
end

