-- ==== Sys2Proof/Laws/Sprite.lean ====
section
/-! SUPPORT. What the sprite engine does to each pixel, and when it reports a collision (43_display.md R161, R162). -/

namespace Sys2Proof.Machine

/-- The sprite bit that lands on (px, py), and 0 where none does: bit 7 - (px - ax) of the byte of row py - ay. -/
def spriteBitAt (bytes : List Byte) (ax ay px py : Nat) : Bool :=
  if ax ≤ px ∧ px < ax + 8 ∧ ay ≤ py then (bytes[py - ay]?.getD 0).getLsbD (7 - (px - ax)) else false

/-- The bit of one row's byte that lands on column px. -/
def rowBitAt (byte : Byte) (ax px : Nat) : Bool :=
  if ax ≤ px ∧ px < ax + 8 then byte.getLsbD (7 - (px - ax)) else false

theorem pixel_xorPixel (fb : Framebuffer) (px py : Nat) (p : Bool) (qx qy : Nat) (hx : px < 64) (hy : py < 32) :
    pixel (xorPixel fb px py p) qx qy = (pixel fb qx qy ^^ (decide (qx = px ∧ qy = py) && p)) := by
  unfold pixel xorPixel
  rw [dif_pos hx]
  by_cases hq : qx < 64
  · rw [dif_pos hq, dif_pos hq, Vector.getElem_set]
    by_cases hxq : px = qx
    · subst hxq
      rw [if_pos rfl, BitVec.getLsbD_xor, BitVec.getLsbD_shiftLeft, BitVec.getLsbD_setWidth]
      by_cases hyq : qy = py
      · subst hyq
        simp [hy]
      · by_cases hlt : qy < py
        · simp [hyq, hlt]
        · have : qy - py ≠ 0 := by omega
          simp [hyq, hlt, BitVec.getLsbD_ofBool, this]
    · have : ¬ (qx = px) := fun e => hxq e.symm
      simp [hxq, this]
  · have : ¬ (qx = px) := by omega
    simp [hq, this]

/-- One sprite bit: its pixel is XORed when it is on the screen, and every other pixel is as it was. -/
theorem pixel_plot (px py : Nat) (p : Bool) (d : Drawing) (qx qy : Nat) (hqx : qx < 64) (hqy : qy < 32) :
    pixel (plot px py p d).fb qx qy = (pixel d.fb qx qy ^^ (decide (qx = px ∧ qy = py) && p)) := by
  unfold plot
  split
  · exact pixel_xorPixel d.fb px py p qx qy (by omega) (by omega)
  · have : ¬ (qx = px ∧ qy = py) := by omega
    simp [this]

theorem hit_plot (px py : Nat) (p : Bool) (d : Drawing) :
    (plot px py p d).hit = (d.hit || (decide (px < 64 ∧ py < 32) && (p && pixel d.fb px py))) := by
  unfold plot
  split
  · have : px < 64 ∧ py < 32 := by omega
    simp [this]
  · have : ¬ (px < 64 ∧ py < 32) := by omega
    simp [this]

/-- The first k bits of a row. -/
def rowPart (byte : Byte) (ax py : Nat) (d : Drawing) (k : Nat) : Drawing :=
  (List.range k).foldl (fun d b => plot (ax + b) py (byte.getLsbD (7 - b)) d) d

theorem rowPart_succ (byte : Byte) (ax py : Nat) (d : Drawing) (k : Nat) :
    rowPart byte ax py d (k + 1) = plot (ax + k) py (byte.getLsbD (7 - k)) (rowPart byte ax py d k) := by
  simp [rowPart, List.range_succ]

theorem pixel_rowPart (byte : Byte) (ax py : Nat) (d : Drawing) (k : Nat) (qx qy : Nat) (hqx : qx < 64)
    (hqy : qy < 32) :
    pixel (rowPart byte ax py d k).fb qx qy =
      (pixel d.fb qx qy ^^ (decide (qy = py ∧ ax ≤ qx ∧ qx < ax + k) && byte.getLsbD (7 - (qx - ax)))) := by
  induction k with
  | zero =>
    have : ¬ (qy = py ∧ ax ≤ qx ∧ qx < ax + 0) := by omega
    rw [decide_eq_false this, Bool.false_and, Bool.xor_false]
    rfl
  | succ k ih =>
    rw [rowPart_succ, pixel_plot _ _ _ _ _ _ hqx hqy, ih]
    by_cases h : qx = ax + k ∧ qy = py
    · have h1 : ¬ (qy = py ∧ ax ≤ qx ∧ qx < ax + k) := by omega
      have h2 : qy = py ∧ ax ≤ qx ∧ qx < ax + (k + 1) := by omega
      rw [decide_eq_true h, decide_eq_false h1, decide_eq_true h2, show qx - ax = k by omega]
      simp
    · have h2 : (qy = py ∧ ax ≤ qx ∧ qx < ax + k) ↔ (qy = py ∧ ax ≤ qx ∧ qx < ax + (k + 1)) := by omega
      rw [decide_eq_false h, Bool.false_and, Bool.xor_false]
      simp only [h2]

theorem hit_rowPart (byte : Byte) (ax py : Nat) (d : Drawing) (k : Nat) :
    (rowPart byte ax py d k).hit = true ↔
      d.hit = true ∨ ∃ b < k, ax + b < 64 ∧ py < 32 ∧ byte.getLsbD (7 - b) = true ∧ pixel d.fb (ax + b) py = true := by
  induction k with
  | zero => simp [rowPart]
  | succ k ih =>
    rw [rowPart_succ, hit_plot, Bool.or_eq_true, ih]
    have e : (∃ b < k + 1, ax + b < 64 ∧ py < 32 ∧ byte.getLsbD (7 - b) = true ∧ pixel d.fb (ax + b) py = true) ↔
        (∃ b < k, ax + b < 64 ∧ py < 32 ∧ byte.getLsbD (7 - b) = true ∧ pixel d.fb (ax + b) py = true) ∨
        (ax + k < 64 ∧ py < 32 ∧ byte.getLsbD (7 - k) = true ∧ pixel d.fb (ax + k) py = true) := by
      constructor
      · rintro ⟨b, hb, h⟩
        by_cases hk : b = k
        · exact .inr (hk ▸ h)
        · exact .inl ⟨b, by omega, h⟩
      · rintro (⟨b, hb, h⟩ | h)
        · exact ⟨b, by omega, h⟩
        · exact ⟨k, by omega, h⟩
    rw [e, or_assoc]
    refine or_congr_right (or_congr_right ?_)
    by_cases hs : ax + k < 64 ∧ py < 32
    · have hpx : pixel (rowPart byte ax py d k).fb (ax + k) py = pixel d.fb (ax + k) py := by
        rw [pixel_rowPart _ _ _ _ _ _ _ hs.1 hs.2]
        have : ¬ (py = py ∧ ax ≤ ax + k ∧ ax + k < ax + k) := by omega
        simp
      simp [hs, hpx]
    · have : ¬ (ax + k < 64 ∧ py < 32 ∧ byte.getLsbD (7 - k) = true ∧ pixel d.fb (ax + k) py = true) :=
        fun h => hs ⟨h.1, h.2.1⟩
      simp [hs, this]

/-- One row: each pixel is XORed with the row's bit that lands on it. -/
theorem pixel_drawRow (byte : Byte) (ax py : Nat) (d : Drawing) (qx qy : Nat) (hqx : qx < 64) (hqy : qy < 32) :
    pixel (drawRow byte ax py d).fb qx qy = (pixel d.fb qx qy ^^ (decide (qy = py) && rowBitAt byte ax qx)) := by
  rw [show drawRow byte ax py d = rowPart byte ax py d 8 from rfl, pixel_rowPart _ _ _ _ _ _ _ hqx hqy]
  unfold rowBitAt
  by_cases h : qy = py
  · by_cases h1 : ax ≤ qx ∧ qx < ax + 8
    · simp [h, h1]
    · simp [h, h1]
  · simp [h]

/-- One row: a collision is a bit 1 on a pixel that was set before the row. -/
theorem hit_drawRow (byte : Byte) (ax py : Nat) (d : Drawing) :
    (drawRow byte ax py d).hit = true ↔
      d.hit = true ∨ ∃ qx < 64, py < 32 ∧ rowBitAt byte ax qx = true ∧ pixel d.fb qx py = true := by
  rw [show drawRow byte ax py d = rowPart byte ax py d 8 from rfl, hit_rowPart]
  refine or_congr_right ⟨?_, ?_⟩
  · rintro ⟨b, hb, h1, h2, h3, h4⟩
    refine ⟨ax + b, h1, h2, ?_, h4⟩
    have : ax ≤ ax + b ∧ ax + b < ax + 8 := by omega
    rw [rowBitAt, if_pos this, show ax + b - ax = b by omega]
    exact h3
  · rintro ⟨qx, h1, h2, h3, h4⟩
    unfold rowBitAt at h3
    split at h3
    · rename_i h
      exact ⟨qx - ax, by omega, by omega, h2, h3, by rwa [show ax + (qx - ax) = qx by omega]⟩
    · cases h3

theorem spriteBitAt_nil (ax ay px py : Nat) : spriteBitAt [] ax ay px py = false := by
  simp [spriteBitAt]

/-- A sprite is its first row at row ay and the rest from row ay + 1. -/
theorem spriteBitAt_cons (byte : Byte) (rest : List Byte) (ax ay px py : Nat) :
    spriteBitAt (byte :: rest) ax ay px py =
      if py = ay then rowBitAt byte ax px else spriteBitAt rest ax (ay + 1) px py := by
  unfold spriteBitAt rowBitAt
  by_cases h : py = ay
  · simp [h]
  · rw [if_neg h]
    by_cases h1 : ax ≤ px ∧ px < ax + 8 ∧ ay ≤ py
    · have h2 : ax ≤ px ∧ px < ax + 8 ∧ ay + 1 ≤ py := by omega
      rw [if_pos h1, if_pos h2, show py - ay = (py - (ay + 1)) + 1 by omega]
      rfl
    · have h2 : ¬ (ax ≤ px ∧ px < ax + 8 ∧ ay + 1 ≤ py) := by omega
      rw [if_neg h1, if_neg h2]

theorem spriteBitAt_above (rest : List Byte) (ax ay px py : Nat) (h : py < ay) :
    spriteBitAt rest ax ay px py = false := by
  have : ¬ (ax ≤ px ∧ px < ax + 8 ∧ ay ≤ py) := by omega
  simp [spriteBitAt, this]

/-- The whole sprite: each pixel on the screen is XORed with the sprite bit that lands on it. -/
theorem pixel_drawSprite (ax ay : Nat) (bytes : List Byte) (d : Drawing) (qx qy : Nat) (hqx : qx < 64)
    (hqy : qy < 32) :
    pixel (drawSprite ax ay bytes d).fb qx qy = (pixel d.fb qx qy ^^ spriteBitAt bytes ax ay qx qy) := by
  induction bytes generalizing ay d with
  | nil => simp [drawSprite, spriteBitAt_nil]
  | cons byte rest ih =>
    rw [drawSprite, ih, pixel_drawRow _ _ _ _ _ _ hqx hqy, spriteBitAt_cons]
    by_cases h : qy = ay
    · simp [h, spriteBitAt_above rest ax (ay + 1) qx ay (by omega)]
    · simp [h]

/-- The whole sprite: a collision is a sprite bit 1 that lands on a pixel set before the draw. -/
theorem hit_drawSprite (ax ay : Nat) (bytes : List Byte) (d : Drawing) :
    (drawSprite ax ay bytes d).hit = true ↔
      d.hit = true ∨ ∃ qx < 64, ∃ qy < 32, spriteBitAt bytes ax ay qx qy = true ∧ pixel d.fb qx qy = true := by
  induction bytes generalizing ay d with
  | nil => simp [drawSprite, spriteBitAt_nil]
  | cons byte rest ih =>
    rw [drawSprite, ih, hit_drawRow, or_assoc]
    refine or_congr_right ⟨?_, ?_⟩
    · rintro (⟨qx, h1, h2, h3, h4⟩ | ⟨qx, h1, qy, h2, h3, h4⟩)
      · exact ⟨qx, h1, ay, h2, by rw [spriteBitAt_cons, if_pos rfl]; exact h3, h4⟩
      · by_cases h : qy = ay
        · rw [h, spriteBitAt_above _ _ _ _ _ (by omega)] at h3
          cases h3
        · refine ⟨qx, h1, qy, h2, by rw [spriteBitAt_cons, if_neg h]; exact h3, ?_⟩
          rw [pixel_drawRow _ _ _ _ _ _ h1 h2] at h4
          simpa [h] using h4
    · rintro ⟨qx, h1, qy, h2, h3, h4⟩
      rw [spriteBitAt_cons] at h3
      by_cases h : qy = ay
      · rw [if_pos h] at h3
        exact .inl ⟨qx, h1, h ▸ h2, h3, h ▸ h4⟩
      · rw [if_neg h] at h3
        refine .inr ⟨qx, h1, qy, h2, h3, ?_⟩
        rw [pixel_drawRow _ _ _ _ _ _ h1 h2]
        simpa [h] using h4

/-- Framebuffers with the same pixels on the screen are equal data. -/
theorem fb_ext {f g : Framebuffer} (h : ∀ px < 64, ∀ py < 32, pixel f px py = pixel g px py) : f = g := by
  apply Vector.ext
  intro px hx
  apply BitVec.eq_of_getLsbD_eq
  intro py hy
  have := h px hx py hy
  simpa [pixel, hx] using this

end Sys2Proof.Machine
end

