-- ==== Sys2Proof/Tests/Slice0.lean ====
section
/-! SUPPORT. The model's own tests: words decoded, ill-formed terms refused, one step of each instruction, each event, and a
witness for the hypotheses of every claim. The expected results are those of spec/95_test_vectors.md (the vector's id
stands at each test) and of the rules named. -/

namespace Sys2Proof.Tests

open Sys2Proof.Machine Sys2Proof.Claims

/-! ## Helpers -/

/-- The state after one step with a word placed at PC. -/
def go (w : Nat) (s : State) : State :=
  match step (s.withFetchWord 16 w) with
  | .next t => t
  | _ => s

/-- The state after an event. -/
def ev (e : Event) (s : State) : State :=
  match e.apply s with
  | .next t => t
  | _ => s

/-- The reset state with registers preset. -/
def regs (l : List (Reg × Byte)) : State := l.foldl (fun s p => s.setReg p.1 p.2) State.reset

/-- A state with I preset. -/
def atI (i : Nat) (s : State) : State := s.setI i
/-- A state with PC preset. -/
def atPc (pc : Nat) (s : State) : State := s.jump pc
/-- A state with SP and one stack entry preset. -/
def onStack (sp : Fin 17) (k : Fin 16) (a : Word) (s : State) : State := { s with sp := sp, stack := s.stack.set k a }
/-- A state with keys held down. -/
def keys (l : List (BitVec 4)) (s : State) : State := l.foldl (fun s k => s.setKey k true) s
/-- A state with pixels set. -/
def lit (l : List (Nat × Nat)) (s : State) : State :=
  s.setFb (l.foldl (fun fb p => xorPixel fb p.1 p.2 true) s.fb) s.dirty
/-- The pixels set, column by column. -/
def lits (s : State) : List (Nat × Nat) :=
  (List.range 64).flatMap fun px => ((List.range 32).filter fun py => pixel s.fb px py).map fun py => (px, py)
/-- A state with bytes of memory preset. -/
def mem (a : Nat) (l : List Byte) (s : State) : State := s.writeBytes a l

/-! ## Decoding: each constructor by a word written out from the patterns of 30_encoding.md R96 -/

theorem test_decode_display_return : decode 0x00E0 = .ok .cls ∧ decode 0x00EE = .ok .ret := ⟨rfl, rfl⟩
theorem test_decode_jumps :
    decode 0x1234 = .ok (.jp 0x234) ∧ decode 0x2FFE = .ok (.call 0xFFE) ∧ decode 0xB300 = .ok (.jpV0 0x300) :=
  ⟨rfl, rfl, rfl⟩
theorem test_decode_skips :
    decode 0x332A = .ok (.seImm 0x3 0x2A) ∧ decode 0x4F2B = .ok (.sneImm 0xF 0x2B) ∧
    decode 0x5120 = .ok (.seReg 0x1 0x2) ∧ decode 0x9AB0 = .ok (.sneReg 0xA 0xB) := ⟨rfl, rfl, rfl, rfl⟩
theorem test_decode_immediates :
    decode 0x6A05 = .ok (.ldImm 0xA 0x05) ∧ decode 0x75FF = .ok (.addImm 0x5 0xFF) ∧
    decode 0xC30F = .ok (.rnd 0x3 0x0F) := ⟨rfl, rfl, rfl⟩
theorem test_decode_alu :
    decode 0x8EF0 = .ok (.ldReg 0xE 0xF) ∧ decode 0x8121 = .ok (.orReg 0x1 0x2) ∧
    decode 0x8122 = .ok (.andReg 0x1 0x2) ∧ decode 0x8123 = .ok (.xorReg 0x1 0x2) ∧
    decode 0x8124 = .ok (.addReg 0x1 0x2) ∧ decode 0x8125 = .ok (.sub 0x1 0x2) ∧
    decode 0x8416 = .ok (.shr 0x4 0x1) ∧ decode 0x8127 = .ok (.subn 0x1 0x2) ∧
    decode 0x840E = .ok (.shl 0x4 0x0) := ⟨rfl, rfl, rfl, rfl, rfl, rfl, rfl, rfl, rfl⟩
theorem test_decode_index :
    decode 0xA2F0 = .ok (.ldI 0x2F0) ∧ decode 0xF11E = .ok (.addI 0x1) ∧ decode 0xF029 = .ok (.ldF 0x0) ∧
    decode 0xFC33 = .ok (.ldB 0xC) ∧ decode 0xF255 = .ok (.storeRegs 0x2) ∧ decode 0xFF65 = .ok (.loadRegs 0xF) :=
  ⟨rfl, rfl, rfl, rfl, rfl, rfl⟩
theorem test_decode_draw : decode 0xD12F = .ok (.drw 0x1 0x2 0xF) := rfl
theorem test_decode_keys_timers :
    decode 0xE29E = .ok (.skp 0x2) ∧ decode 0xE2A1 = .ok (.sknp 0x2) ∧ decode 0xF407 = .ok (.ldVxDt 0x4) ∧
    decode 0xF30A = .ok (.ldVxK 0x3) ∧ decode 0xF015 = .ok (.ldDtVx 0x0) ∧ decode 0xF918 = .ok (.ldStVx 0x9) :=
  ⟨rfl, rfl, rfl, rfl, rfl, rfl⟩
/-- Vectors U1 to U15, by family. -/
theorem test_decode_rejects :
    decode 0x0000 = .error .family0 ∧ decode 0x00E1 = .error .family0 ∧ decode 0x01E0 = .error .family0 ∧
    decode 0x5121 = .error .family5 ∧ decode 0x9121 = .error .family9 ∧ decode 0x8018 = .error .family8 ∧
    decode 0x801F = .error .family8 ∧ decode 0xE09F = .error .familyE ∧ decode 0xE000 = .error .familyE ∧
    decode 0xF0FF = .error .familyF ∧ decode 0xF075 = .error .familyF ∧ decode 0xF11F = .error .familyF :=
  ⟨rfl, rfl, rfl, rfl, rfl, rfl, rfl, rfl, rfl, rfl, rfl, rfl⟩
/-- R65: the first byte is the high one. -/
theorem test_decode_bytes :
    decodeBytes [0x12, 0x34, 0x56] = .ok (.jp 0x234, [0x56]) ∧ decodeBytes [0x12] = .error .truncated ∧
    decodeBytes [] = .error .truncated := ⟨rfl, rfl, rfl⟩
theorem test_decode_table_word : decodeTableWord 16 0xD125 = some (.drw 1 2 5) ∧ decodeTableWord 16 0x5001 = none :=
  ⟨rfl, rfl⟩
/-- R96: 34 rows, no two of which a word could match together. -/
theorem test_rows_are_disjoint :
    opcodeRows.length = 34 ∧
    opcodeRows.Pairwise (fun p q => p.2 &&& (p.1 &&& q.1) ≠ q.2 &&& (p.1 &&& q.1)) := by decide

/-! ## WellFormed: each check refuses an ill-formed term and takes a well-formed one -/

theorem test_assembles_refuses : Instr.assembles (.shr 0 1) = false ∧ Instr.assembles (.shl 4 0xF) = false := by decide
theorem test_assembles_takes : Instr.assembles (.shr 4 0) = true ∧ Instr.assembles (.addReg 0 1) = true := by decide
theorem test_plainFlags_refuses :
    Instr.plainFlags (.addReg 0xF 0) = false ∧ Instr.plainFlags (.sub 0xF 1) = false ∧
    Instr.plainFlags (.shr 0xF 0) = false ∧ Instr.plainFlags (.subn 0xF 2) = false ∧
    Instr.plainFlags (.shl 0xF 0) = false ∧ Instr.plainFlags (.drw 0xF 0 1) = false ∧
    Instr.plainFlags (.drw 0 0xF 1) = false := by decide
theorem test_plainFlags_takes : Instr.plainFlags (.addReg 0 0xF) = true ∧ Instr.plainFlags (.addI 0xF) = true := by
  decide
theorem test_romFits_refuses : romFits (List.replicate 3585 0xAA) = false := by
  unfold romFits
  rw [List.length_replicate]
  rfl
theorem test_romFits_takes : romFits (List.replicate 3584 0xAA) = true ∧ romFits [] = true := by
  unfold romFits
  rw [List.length_replicate]
  exact ⟨rfl, rfl⟩

/-! ## Reset (10_state.md R40, R41) -/

theorem test_reset_memory :
    State.reset.memRead 0 = 0xF0 ∧ State.reset.memRead 0x23 = 0xF0 ∧ State.reset.memRead 0x4F = 0x80 ∧
    State.reset.memRead 0x50 = 0 ∧ State.reset.memRead 0x200 = 0 ∧ State.reset.memRead 0xFFF = 0 := by decide
theorem test_reset_pc : State.reset.pc = 0x200 ∧ State.reset.fault = none := by decide
/-- Program P8. -/
theorem test_reset_step : go 0x0000 State.reset = State.reset.jump 0x202 := by decide

/-! ## One step of each instruction -/

/-- F1. -/
theorem test_ret : let t := go 0x00EE (atPc 0x20C (onStack 1 0 0x0204 State.reset))
    t.pc = 0x206 ∧ t.sp = 0 ∧ t.stack[0] = 0x0204 := by decide
/-- F3: two past the entry wraps; F4 takes the top of a full stack. -/
theorem test_ret_edges :
    (go 0x00EE (atPc 0x300 (onStack 1 0 0x0FFF State.reset))).pc = 0x001 ∧
    (go 0x00EE (atPc 0x300 (onStack 16 15 0x0ABC State.reset))).pc = 0xABE := by decide
/-- F5, F7. -/
theorem test_jp : (go 0x1234 State.reset).pc = 0x234 ∧ (go 0x1203 State.reset).pc = 0x203 := by decide
/-- F8: the pushed address is the CALL's own. -/
theorem test_call : let t := go 0x220A (atPc 0x204 State.reset)
    t.pc = 0x20A ∧ t.sp = 1 ∧ t.stack[0] = 0x0204 := by decide
/-- F9, F10: the sixteenth call succeeds; the next faults and writes nothing. -/
theorem test_call_edges :
    (go 0x2400 (atPc 0x3FE (onStack 15 0 0 State.reset))).stack[15] = 0x03FE ∧
    (let t := go 0x2400 (onStack 16 15 0x0222 State.reset)
     t.fault = some .stackOverflow ∧ t.pc = 0x200 ∧ t.sp = 16 ∧ t.stack[15] = 0x0222) := by decide
/-- F11 to F13. -/
theorem test_seImm :
    (go 0x332A (regs [(3, 0x2A)])).pc = 0x204 ∧ (go 0x332B (regs [(3, 0x2A)])).pc = 0x202 ∧
    (go 0x332A (atPc 0xFFE (regs [(3, 0x2A)]))).pc = 0x002 := by decide
/-- F14, F15. -/
theorem test_sneImm : (go 0x432A (regs [(3, 0x2A)])).pc = 0x202 ∧ (go 0x432B (regs [(3, 0x2A)])).pc = 0x204 := by
  decide
/-- F16 to F18. -/
theorem test_seReg :
    (go 0x5120 (regs [(1, 7), (2, 7)])).pc = 0x204 ∧ (go 0x5120 (regs [(1, 7), (2, 8)])).pc = 0x202 ∧
    (go 0x5110 (regs [(1, 7)])).pc = 0x204 := by decide
/-- F19 to F21. -/
theorem test_sneReg :
    (go 0x9120 (regs [(1, 7), (2, 8)])).pc = 0x204 ∧ (go 0x9120 (regs [(1, 7), (2, 7)])).pc = 0x202 ∧
    (go 0x9110 (regs [(1, 7)])).pc = 0x202 := by decide
/-- F22 to F24. -/
theorem test_jpV0 :
    (go 0xB300 (regs [(0, 0x10)])).pc = 0x310 ∧ (go 0xBFFF (regs [(0, 0xFF)])).pc = 0x0FE ∧
    (go 0xB234 (regs [(0, 0x01), (2, 0x50)])).pc = 0x235 := by decide
/-- A1, A2. -/
theorem test_ldImm : (go 0x6A05 State.reset).reg 0xA = 0x05 ∧ (go 0x6FFF State.reset).reg 0xF = 0xFF := by
  decide
/-- A4, A6: the sum wraps and no flag is written. -/
theorem test_addImm :
    (let t := go 0x7501 (regs [(5, 0xFF), (0xF, 1)]); t.reg 5 = 0 ∧ t.reg 0xF = 1) ∧
    (go 0x7F01 (regs [(0xF, 0xFF)])).reg 0xF = 0 := by decide
/-- A7, A8. -/
theorem test_ldReg : (go 0x8010 (regs [(1, 0x33)])).reg 0 = 0x33 ∧ (go 0x8EF0 (regs [(0xF, 1)])).reg 0xE = 1 := by
  decide
/-- A9. -/
theorem test_orReg : let t := go 0x8011 (regs [(0, 0xF0), (1, 0x0F), (0xF, 1)])
    t.reg 0 = 0xFF ∧ t.reg 0xF = 1 := by decide
/-- A10. -/
theorem test_andReg : let t := go 0x8012 (regs [(0, 0xF3), (1, 0x3C), (0xF, 1)])
    t.reg 0 = 0x30 ∧ t.reg 0xF = 1 := by decide
/-- A11. -/
theorem test_xorReg : let t := go 0x8013 (regs [(0, 0xFF), (1, 0x0F), (0xF, 1)])
    t.reg 0 = 0xF0 ∧ t.reg 0xF = 1 := by decide
/-- A13, A15: 255 is not a carry. -/
theorem test_addReg :
    (let t := go 0x8014 (regs [(0, 0xC8), (1, 0x64)]); t.reg 0 = 0x2C ∧ t.reg 0xF = 1) ∧
    (let t := go 0x8014 (regs [(0, 0x80), (1, 0x7F), (0xF, 1)]); t.reg 0 = 0xFF ∧ t.reg 0xF = 0) := by decide
/-- A18, A19: VF as x keeps the flag; VF as y is read before it is written. -/
theorem test_addReg_vf :
    (go 0x8F14 (regs [(0xF, 0xC8), (1, 0x64)])).reg 0xF = 1 ∧
    (let t := go 0x80F4 (regs [(0, 5), (0xF, 3)]); t.reg 0 = 8 ∧ t.reg 0xF = 0) := by decide
/-- A20 to A22 (the source's own scenarios S1, S2). -/
theorem test_sub :
    (let t := go 0x8015 (regs [(0, 10), (1, 5)]); t.reg 0 = 5 ∧ t.reg 0xF = 1) ∧
    (let t := go 0x8015 (regs [(0, 5), (1, 10), (0xF, 1)]); t.reg 0 = 0xFB ∧ t.reg 0xF = 0) ∧
    (let t := go 0x8015 (regs [(0, 7), (1, 7)]); t.reg 0 = 0 ∧ t.reg 0xF = 1) := by decide
/-- A24, A25. -/
theorem test_sub_vf :
    (go 0x8F15 (regs [(0xF, 10), (1, 5)])).reg 0xF = 1 ∧
    (let t := go 0x80F5 (regs [(0, 5), (0xF, 1)]); t.reg 0 = 4 ∧ t.reg 0xF = 1) := by decide
/-- A28, A29: the y field is ignored, the shift is logical. -/
theorem test_shr :
    (let t := go 0x8416 (regs [(4, 4), (1, 0xFF)]); t.reg 4 = 2 ∧ t.reg 0xF = 0 ∧ t.reg 1 = 0xFF) ∧
    (let t := go 0x8406 (regs [(4, 0xFF)]); t.reg 4 = 0x7F ∧ t.reg 0xF = 1) := by decide
/-- A30. -/
theorem test_shr_vf : (go 0x8F06 (regs [(0xF, 2)])).reg 0xF = 0 := by decide
/-- A31 to A33. -/
theorem test_subn :
    (let t := go 0x8017 (regs [(0, 10), (1, 5), (0xF, 1)]); t.reg 0 = 0xFB ∧ t.reg 0xF = 0) ∧
    (let t := go 0x8017 (regs [(0, 5), (1, 10)]); t.reg 0 = 5 ∧ t.reg 0xF = 1) ∧
    (go 0x8017 (regs [(0, 9), (1, 9)])).reg 0xF = 1 := by decide
/-- A34, A36. -/
theorem test_shl :
    (let t := go 0x840E (regs [(4, 0x81)]); t.reg 4 = 2 ∧ t.reg 0xF = 1) ∧
    (let t := go 0x840E (regs [(4, 0x7F), (0xF, 1)]); t.reg 4 = 0xFE ∧ t.reg 0xF = 0) := by decide
/-- A37. -/
theorem test_shl_vf : (go 0x8F0E (regs [(0xF, 0x40)])).reg 0xF = 0 := by decide
/-- A39: kk = 0 gives 0 for every byte drawn. -/
theorem test_rnd : let t := go 0xC300 (regs [(3, 0x55)])
    t.reg 3 = 0 ∧ t.pc = 0x202 ∧ t.draws = 1 := by
  have h : ∀ b : Byte, b &&& 0 = 0 := by decide
  refine ⟨?_, rfl, rfl⟩
  exact h (Config.rnd 0)
/-- X2. -/
theorem test_ldI : (go 0xAFFF (atI 0x123 State.reset)).i = 0xFFF := by decide
/-- X4, X5: 0xFFF is not a carry. -/
theorem test_addI :
    (let t := go 0xF11E (atI 0xFFF (regs [(1, 1)])); t.i = 0 ∧ t.reg 0xF = 1) ∧
    (let t := go 0xF11E (atI 0xF00 (regs [(1, 0xFF), (0xF, 1)])); t.i = 0xFFF ∧ t.reg 0xF = 0) := by decide
/-- X6. -/
theorem test_addI_vf : let t := go 0xFF1E (atI 0xFFE (regs [(0xF, 5)]))
    t.i = 0x003 ∧ t.reg 0xF = 1 := by decide
/-- X8, X9. -/
theorem test_ldF : (go 0xF029 (regs [(0, 0x0F)])).i = 0x04B ∧ (go 0xF029 (regs [(0, 0xFF)])).i = 0x4FB := by
  decide
/-- X10, X13: the address wraps into the font. -/
theorem test_ldB :
    (go 0xF033 (atI 0x300 (regs [(0, 0xFE)]))).readBytes 0x300 3 = [2, 5, 4] ∧
    (let t := go 0xF033 (atI 0xFFE (regs [(0, 0x7B)]))
     t.readBytes 0xFFE 2 = [1, 2] ∧ t.memRead 0 = 3 ∧ t.i = 0xFFE) := by decide
/-- X14, X16. -/
theorem test_storeRegs :
    (go 0xF255 (atI 0x400 (regs [(0, 1), (1, 2), (2, 3), (3, 4)]))).readBytes 0x400 4 = [1, 2, 3, 0] ∧
    (let t := go 0xF155 (atI 0xFFF (regs [(0, 0xAA), (1, 0xBB)]))
     t.memRead 0xFFF = 0xAA ∧ t.memRead 0 = 0xBB ∧ t.i = 0xFFF) := by decide
/-- X17. -/
theorem test_storeRegs_all :
    (go 0xFF55 (atI 0x500 (regs [(0, 0x10), (7, 0x17), (0xF, 0x1F)]))).readBytes 0x500 17 =
      [0x10, 0, 0, 0, 0, 0, 0, 0x17, 0, 0, 0, 0, 0, 0, 0, 0x1F, 0] := by decide
/-- X18. -/
theorem test_loadRegs : let t := go 0xF265 (atI 0x300 (mem 0x300 [2, 5, 4, 9] (regs [(3, 0x77)])))
    t.reg 0 = 2 ∧ t.reg 1 = 5 ∧ t.reg 2 = 4 ∧ t.reg 3 = 0x77 ∧ t.i = 0x300 := by decide
/-- X19, X20. -/
theorem test_loadRegs_edges :
    (go 0xFF65 (atI 0x300 (mem 0x30F [0xAF] State.reset))).reg 0xF = 0xAF ∧
    (let t := go 0xF165 (atI 0xFFF (mem 0xFFF [0x11, 0x22] State.reset)); t.reg 0 = 0x11 ∧ t.reg 1 = 0x22) := by
  decide
/-- D1. -/
theorem test_cls : let t := go 0x00E0 (lit [(0, 0), (63, 31), (10, 5)] State.reset)
    lits t = [] ∧ t.dirty = true ∧ t.pc = 0x202 := by decide
/-- D8: one collision, one fresh pixel. -/
theorem test_drw : let t := go 0xD011 (lit [(3, 2)] (mem 0x300 [0x81] (atI 0x300 (regs [(0, 3), (1, 2)]))))
    lits t = [(10, 2)] ∧ t.reg 0xF = 1 ∧ t.dirty = true := by decide
/-- D11, D12: clipped at the bottom; VF as x gives the column and is then the flag. -/
theorem test_drw_edges :
    (lits (go 0xD012 (lit [(0, 0)] (mem 0x300 [0x80, 0x80] (atI 0x300 (regs [(1, 0x1F)]))))) = [(0, 0), (0, 31)]) ∧
    (let t := go 0xDF01 (mem 0x300 [0x80] (atI 0x300 (regs [(0xF, 5), (0, 1)])))
     lits t = [(5, 1)] ∧ t.reg 0xF = 0) := by decide
/-- K3: the low four bits select the key. -/
theorem test_skp :
    (go 0xE29E (keys [0xA] (regs [(2, 0x1A)]))).pc = 0x204 ∧ (go 0xE29E (regs [(2, 5)])).pc = 0x202 := by
  decide
/-- K4, K5. -/
theorem test_sknp :
    (go 0xE2A1 (regs [(2, 5)])).pc = 0x204 ∧ (go 0xE2A1 (keys [5] (regs [(2, 5)]))).pc = 0x202 := by decide
/-- K6: waiting leaves the whole state as it was. -/
theorem test_ldVxK_waits : go 0xF30A (regs [(3, 0x99)]) = (regs [(3, 0x99)]).withFetchWord 16 0xF30A := by
  decide
/-- K8, K9. -/
theorem test_ldVxK :
    (let t := go 0xF30A (keys [9, 4] State.reset); t.reg 3 = 4 ∧ t.pc = 0x202) ∧
    (go 0xF30A (keys [0] (regs [(3, 0x99)]))).reg 3 = 0 := by decide
/-- K10. -/
theorem test_ldVxDt : (go 0xF407 (State.reset.setDt 44)).reg 4 = 0x2C := by decide
/-- K11. -/
theorem test_ldDtVx : let t := go 0xF015 (regs [(0, 0x3C)])
    t.dt = 60 ∧ t.st = 0 := by decide
/-- K14. -/
theorem test_ldStVx : let t := go 0xF018 (State.reset.setSt 5)
    t.st = 0 ∧ t.dt = 0 ∧ Event.outputs .cycle ((State.reset.setSt 5).withFetchWord 16 0xF018) = [] := by
  decide
/-- U6: reported, and nothing but PC changes. -/
theorem test_unrecognized : let s := (regs [(1, 7), (2, 7)]).withFetchWord 16 0x5121
    go 0x5121 (regs [(1, 7), (2, 7)]) = s.jump 0x202 ∧ Event.outputs .cycle s = [.unsupported 0x200 0x5121] := by
  decide
/-- U17: the fetch wraps. -/
theorem test_fetch_wraps : let t := go 0x60AB (atPc 0xFFF State.reset)
    t.reg 0 = 0xAB ∧ t.pc = 0x001 ∧ t.memRead 0 = 0xAB := by decide

/-! ## The other events -/

/-- E2, E3, E5. -/
theorem test_tick :
    (let s := (State.reset.setDt 5).setSt 1
     ev .tick s = State.reset.setDt 4 ∧ Event.outputs .tick s = [.beep]) ∧
    Event.outputs .tick (State.reset.setSt 2) = [] := by decide
/-- E6. -/
theorem test_set_key :
    (ev (.setKey 0xA true) State.reset).keyDown 0xA = true ∧
    ev (.setKey 0xA false) (ev (.setKey 0xA true) State.reset) = State.reset := by decide
/-- E8, E12. -/
theorem test_load_rom :
    (ev .cycle (ev (.loadRom [0x12, 0x34]) State.reset)).pc = 0x234 ∧
    (ev (.loadRom [9]) (ev (.loadRom [1, 2, 3, 4]) State.reset)).readBytes 0x200 5 = [9, 2, 3, 4, 0] := by decide
/-- E13. -/
theorem test_snapshot : let s := (lit [(1, 1), (2, 2)] State.reset)
    ev .snapshot (s.setFb s.fb true) = s ∧ Event.outputs .snapshot s = [.grid s.fb] := by decide
/-- E16: RESET erases the program and clears the latch. -/
theorem test_reset_event :
    ev .reset ((keys [1] (mem 0x200 [0x22, 0] State.reset)).setFault (some .stackOverflow)) = State.reset := by
  decide
/-- P9, and the halted core of E15. -/
theorem test_underflow : let s := State.reset.withFetchWord 16 0x00EE
    ev .cycle s = s.setFault (some .stackUnderflow) ∧ Event.outputs .cycle s = [.diagnostic 2 0x200] ∧
    ev .cycle (ev .cycle s) = ev .cycle s ∧ Event.outputs .cycle (ev .cycle s) = [] := by decide

/-! ## A witness for the hypotheses of each claim

The hypothesis `exec i s = .next t` of many claims is met by every instruction in every state
(`Laws/Ops.lean`); the witnesses below give one such state each. -/

/-- LD VA, 0x05 at PC. -/
theorem witness_StepRunsDecodedInstruction :
    (State.reset.withFetchWord 16 0x6A05).fault = none ∧
    decode (State.reset.withFetchWord 16 0x6A05).fetch = .ok (.ldImm 0xA 0x05) := ⟨rfl, rfl⟩
/-- The word across the end of memory: PC = 0xFFF, the low byte at 0x000. -/
theorem witness_StepRunsEncodedBytes : let s := (atPc 0xFFF State.reset).withFetchWord 16 0x60AB
    s.fault = none ∧ s.memRead s.pc.toNat = (encode (.ldImm 0 0xAB)).extractLsb' 8 8 ∧
    s.memRead ((s.pc.toNat + 1) % 4096) = (encode (.ldImm 0 0xAB)).extractLsb' 0 8 := by decide
theorem witness_EncodeInvertsDecode : decode 0x8AB6 = .ok (.shr 0xA 0xB) := rfl
theorem witness_RecognizedWordMatchesOneRow : decode 0xFF65 = .ok (.loadRegs 0xF) ∧ decode 0xFF66 = .error .familyF :=
  ⟨rfl, rfl⟩
theorem witness_UnrecognizedWordAdvancesPc :
    State.reset.fault = none ∧ decode State.reset.fetch = .error .family0 := ⟨rfl, rfl⟩
theorem witness_HaltedCycleChangesNothing :
    (State.reset.setFault (some .stackOverflow)).fault = some .stackOverflow := rfl
theorem reset_inv : State.reset.Inv where
  pc := by decide
  i := by decide
  stack := by decide
  mem := ⟨.nil, by intro c h; cases h⟩
theorem witness_StepKeepsConfinement : State.reset.Inv ∧ ∃ t, step State.reset = .next t := ⟨reset_inv, _, rfl⟩
theorem witness_EveryRunStaysConfined :
    State.reset.Inv ∧ ∃ t, runEvents [.loadRom [0x12, 0x34], .tick, .cycle, .reset] State.reset = .next t :=
  ⟨reset_inv, _, rfl⟩
/-- SP at the two ends of the range. -/
theorem witness_CallPushesItsOwnAddress :
    State.reset.sp.val < 16 ∧ (onStack 15 0 0 State.reset).sp.val < 16 := by decide
theorem witness_ReturnPopsTheTopEntry :
    0 < (onStack 1 0 0x204 State.reset).sp.val ∧ 0 < (onStack 16 15 0xFFF State.reset).sp.val := by decide
theorem witness_StackFaultsOnlySetTheLatch_overflow : let s := (onStack 16 0 0 State.reset).withFetchWord 16 0x2400
    s.sp.val = 16 ∧ s.fault = none ∧ decode s.fetch = .ok (.call 0x400) := ⟨rfl, rfl, rfl⟩
theorem witness_StackFaultsOnlySetTheLatch_underflow : let s := State.reset.withFetchWord 16 0x00EE
    s.sp.val = 0 ∧ s.fault = none ∧ decode s.fetch = .ok .ret := ⟨rfl, rfl, rfl⟩
theorem witness_OnlyStackInstructionsFault :
    (∃ t, exec (.call 0x400) (onStack 16 0 0 State.reset) = .next t ∧ t.fault ≠ State.reset.fault) ∧
    (∃ t, exec .ret State.reset = .next t ∧ t.fault ≠ State.reset.fault) :=
  ⟨⟨_, rfl, by decide⟩, ⟨_, rfl, by decide⟩⟩
theorem witness_CallThenReturnResumes : let s := onStack 15 0 0 State.reset
    s.sp.val < 16 ∧ ∃ t, exec (.call 0x400) s = .next t ∧ (t.setReg 3 7).sp = t.sp ∧ (t.setReg 3 7).stack = t.stack :=
  ⟨by decide, _, rfl, rfl, rfl⟩
/-- x = 0 and x = F. -/
theorem witness_StoreThenLoadRestoresRegisters :
    (∃ t, exec (.storeRegs 0) State.reset = .next t) ∧
    (∃ t, exec (.storeRegs 0xF) (atI 0xFFF State.reset) = .next t) := ⟨⟨_, rfl⟩, ⟨_, rfl⟩⟩
/-- The clauses of RegistersStored: an address stored to and one that is not. -/
theorem witness_RegistersStored :
    (0xF#4 : Reg).toNat ≤ (0xF#4 : Reg).toNat ∧ (∀ j ≤ (0xF#4 : Reg).toNat, 0x1F % 4096 ≠ (0xFFF + j) % 4096) := by
  decide
theorem witness_DigitsLoadedBackMakeTheByte : ∃ t, exec (.ldB 2) (atI 0xFFE (regs [(2, 0xFF)])) = .next t := ⟨_, rfl⟩
/-- The store lies just past the instruction, across the end of memory; x = 0, x = F and Fx33. -/
theorem witness_StoreIsSeenByTheNextFetch : let s := atI 0xFFF (atPc 0xFFD State.reset)
    s.fault = none ∧ s.i.toNat % 4096 = (s.pc.toNat + 2) % 4096 ∧ (∃ t, exec (.storeRegs 0) s = .next t) ∧
    (∃ t, exec (.storeRegs 0xF) s = .next t) ∧ ∃ t, exec (.ldB 0xF) s = .next t :=
  ⟨rfl, by decide, ⟨_, rfl⟩, ⟨_, rfl⟩, _, rfl⟩
/-- The new bytes: an instruction (program P7's JP 0x20C), and an unrecognized word. -/
theorem witness_executesNext :
    decode (0x12#8 ++ 0x0C#8) = .ok (.jp 0x20C) ∧ decode (0x02#8 ++ 0x05#8) = .error .family0 := ⟨rfl, rfl⟩
/-- A sprite bit on the set pixel in the corner (63, 31): a collision. -/
theorem witness_collides : collides (lit [(63, 31)] (mem 0x300 [0xFF] (atI 0x300 (regs [(0, 0xFF), (1, 0xFF)])))) 0 1 1 :=
  ⟨63, 31, by decide, by decide, by decide, by decide⟩
/-- n = 0 has no collision. -/
theorem witness_not_collides : ¬ collides (lit [(0, 0)] State.reset) 0 1 0 := by
  rintro ⟨px, py, -, -, h, -⟩
  unfold spriteBit at h
  split at h
  · rename_i hn
    have : (BitVec.toNat (0 : BitVec 4)) = 0 := rfl
    omega
  · cases h
theorem witness_DrawTwiceRestores : let s := mem 0x300 [0x81] (atI 0x300 (regs [(0, 3), (1, 2)]))
    ∃ t, exec (.drw 0 1 1) s = .next t ∧ (t.reg 0).toNat % 64 = (s.reg 0).toNat % 64 ∧
      (t.reg 1).toNat % 32 = (s.reg 1).toNat % 32 := ⟨_, rfl, by decide, by decide⟩
/-- No key down; key 0 down; key 15 down alone. -/
theorem witness_KeyWait :
    (∀ j : Fin 16, State.reset.key[j] = false) ∧
    ((keys [0] State.reset).key[(0 : Fin 16)] = true ∧ ∀ j : Fin 16, j < 0 → (keys [0] State.reset).key[j] = false) ∧
    ((keys [15] State.reset).key[(15 : Fin 16)] = true ∧
      ∀ j : Fin 16, j < 15 → (keys [15] State.reset).key[j] = false) := by decide
/-- Fx18 over a running timer; CALL at SP = 15; RET at SP = 1. -/
theorem witness_SoundTimerWrite :
    (let s := (State.reset.setSt 5).withFetchWord 16 0xF018
     s.fault = none ∧ decode s.fetch = .ok (.ldStVx 0) ∧ (∀ nnn, Instr.ldStVx 0 ≠ .call nnn) ∧ Instr.ldStVx 0 ≠ .ret) ∧
    (let s := (onStack 15 0 0 State.reset).withFetchWord 16 0x2400
     s.fault = none ∧ decode s.fetch = .ok (.call 0x400) ∧ s.sp.val ≠ 16) ∧
    (let s := (onStack 1 0 0 State.reset).withFetchWord 16 0x00EE
     s.fault = none ∧ decode s.fetch = .ok .ret ∧ s.sp.val ≠ 0) :=
  ⟨⟨rfl, rfl, nofun, nofun⟩, ⟨rfl, rfl, by decide⟩, rfl, rfl, by decide⟩
theorem witness_LoadRomCopiesOrRefuses :
    (List.replicate 3584 (0xAA : Byte)).length ≤ 3584 ∧ ([] : List Byte).length ≤ 3584 ∧
    3584 < (List.replicate 3585 (0xAA : Byte)).length := by
  rw [List.length_replicate, List.length_replicate]
  exact ⟨Nat.le_refl _, Nat.zero_le _, Nat.lt_succ_self _⟩
/-- The last address of a full ROM, and the first cell outside it. -/
theorem witness_LoadRomCopiesOrRefuses_bounds :
    3583 < (List.replicate 3584 (0xAA : Byte)).length ∧ 0x1FF < 0x200 ∧
    (0x200 + ([] : List Byte).length ≤ 0xFFF) := by
  rw [List.length_replicate]
  exact ⟨Nat.lt_succ_self _, by decide, by decide⟩
theorem witness_BootFetchesTheFirstRomWord :
    (List.replicate 3582 (0 : Byte)).length ≤ 3582 ∧ ([] : List Byte).length ≤ 3582 ∧
    decode (0x12#8 ++ 0x34#8) = .ok (.jp 0x234) := ⟨Nat.le_of_eq List.length_replicate, Nat.zero_le _, rfl⟩
/-- One instruction outside each of the classes. -/
theorem witness_InstructionWriteMatrix :
    (∃ t, exec (.ldImm 3 7) State.reset = .next t) ∧ writesMem (.ldImm 3 7) = false ∧ writesI (.ldImm 3 7) = false ∧
    writesStack (.ldImm 3 7) = false ∧ writesFb (.ldImm 3 7) = false ∧ (∀ x, Instr.ldImm 3 7 ≠ .ldDtVx x) ∧
    (∀ x, Instr.ldImm 3 7 ≠ .ldStVx x) ∧ (∀ x kk, Instr.ldImm 3 7 ≠ .rnd x kk) :=
  ⟨⟨_, rfl⟩, rfl, rfl, rfl, rfl, nofun, nofun, nofun⟩
theorem witness_RegisterWriters :
    (∃ t, exec (.loadRegs 2) State.reset = .next t) ∧ mayWrite (.loadRegs 2) 3 = false ∧
    mayWrite (.addReg 0 1) 0xE = false := ⟨⟨_, rfl⟩, rfl, rfl⟩
theorem witness_HostEventWriteMatrix :
    Event.tick ≠ .reset ∧ Event.tick ≠ .cycle ∧ (∃ t, Event.apply .tick State.reset = .next t) ∧
    Event.snapshot ≠ .tick ∧ (∀ k d, Event.tick ≠ .setKey k d) ∧ Event.tick ≠ .snapshot ∧
    (∀ bs, Event.tick ≠ .loadRom bs) := ⟨nofun, nofun, ⟨_, rfl⟩, nofun, nofun, nofun, nofun⟩
/-- An unrecognized word; an Fx0A that waits. -/
theorem witness_PcAfterACycle :
    (State.reset.fault = none ∧ ∃ t, step State.reset = .next t) ∧
    (let s := State.reset.withFetchWord 16 0xF30A
     s.fault = none ∧ decode s.fetch = .ok (.ldVxK 3) ∧ (∀ j : Fin 16, s.key[j] = false) ∧ step s = .next s) :=
  ⟨⟨rfl, _, rfl⟩, rfl, rfl, by decide, rfl⟩
theorem witness_HaltedUntilReset : let s := State.reset.setFault (some .stackUnderflow)
    s.fault = some .stackUnderflow ∧ Event.reset ∉ [Event.cycle, .tick] ∧
    ∃ t, runEvents [.cycle, .tick] s = .next t := ⟨rfl, by simp, _, rfl⟩
theorem witness_SafeRunHasSafePrefixes :
    Event.reset ∉ [Event.tick] ∧ SafeRun ([.cycle] ++ [.tick]) State.reset := ⟨by simp, _, rfl, rfl⟩
theorem witness_RandomByteReachesOnlyRnd :
    (∀ x kk, Instr.ldVxDt 3 ≠ .rnd x kk) ∧ ∃ t, exec (.ldVxDt 3) State.reset = .next t := ⟨nofun, _, rfl⟩
theorem witness_TimersReachOnlyFx07 :
    (∀ x, Instr.ldDtVx 3 ≠ .ldVxDt x) ∧ ∃ t, exec (.ldDtVx 3) State.reset = .next t := ⟨nofun, _, rfl⟩

end Sys2Proof.Tests
end

section
/-! The LOAD_ROM event (20_memory.md R75): what it does to a ROM that fits and to one that does not. -/

namespace Sys2Proof.Machine

theorem romFits_iff (bytes : List Byte) : romFits bytes = true ↔ bytes.length ≤ 3584 :=
  decide_eq_true_iff

/-! ### a ROM that fits -/

theorem State.loadRom_of_fits (s : State) {bytes : List Byte} (h : bytes.length ≤ 3584) :
    s.loadRom bytes = s.writeBytes 0x200 bytes :=
  if_pos ((romFits_iff bytes).2 h)

theorem Event.outputs_loadRom_of_fits (s : State) {bytes : List Byte} (h : bytes.length ≤ 3584) :
    Event.outputs (.loadRom bytes) s = [] :=
  if_pos ((romFits_iff bytes).2 h)

/-! ### a ROM that is too large -/

theorem State.loadRom_of_too_large (s : State) {bytes : List Byte} (h : 3584 < bytes.length) :
    s.loadRom bytes = s :=
  if_neg (mt (romFits_iff bytes).1 (Nat.not_le_of_lt h))

theorem Event.outputs_loadRom_of_too_large (s : State) {bytes : List Byte} (h : 3584 < bytes.length) :
    Event.outputs (.loadRom bytes) s = [.romTooLarge] :=
  if_neg (mt (romFits_iff bytes).1 (Nat.not_le_of_lt h))

/-! ### memory after a load -/

/-- Below 4096 no address of a ROM that fits wraps, so the cells outside its range are none of the cells written. -/
theorem State.memRead_writeBytes_outside_rom (s : State) {bytes : List Byte} (h : bytes.length ≤ 3584) {a : Nat}
    (ha : a < 4096) (hout : a < 0x200 ∨ 0x200 + bytes.length ≤ a) :
    (s.writeBytes 0x200 bytes).memRead a = s.memRead a :=
  s.memRead_writeBytes_of_ne 0x200 bytes a fun k hk => by omega

/-- Settles O51: the write of a ROM that fits does not wrap, so each byte is read back from its own cell and every other
cell keeps its byte; a longer ROM fails the length check before anything is written. -/
theorem loadRomCopiesOrRefuses : Obligations.LoadRomCopiesOrRefuses := by
  intro bytes s
  constructor
  · intro h
    refine ⟨Event.outputs_loadRom_of_fits s h, (s.writeBytes 0x200 bytes).mem, ?applied, ?inside, ?outside⟩
    case applied =>
      exact congrArg Host.Outcome.next ((s.loadRom_of_fits h).trans (s.writeBytes_eq 0x200 bytes))
    case inside =>
      intro k hk
      rw [State.read_writeBytes_mem]
      exact s.memRead_writeBytes 0x200 bytes (by omega) k hk _ rfl
    case outside =>
      intro a ha hout
      rw [State.read_writeBytes_mem]
      exact s.memRead_writeBytes_outside_rom h ha hout
  · intro h
    exact ⟨congrArg Host.Outcome.next (s.loadRom_of_too_large h), Event.outputs_loadRom_of_too_large s h⟩

end Sys2Proof.Machine
end

section
/-! The decoder on the encoder's words: the fields of the word select the arm of `decode`, and give the operands back
(30_encoding.md R94, R96). -/

namespace Sys2Proof

/-- The decoder inverts the encoder, by the shape of the word: fixed, NNN, XKK, XYN, and
the families 8 and F with a selector of their own. -/
theorem decode_encode (i : Instr) : decode (encode i) = .ok i := by
  cases i with
  | cls | ret => rfl
  | jp | call | ldI | jpV0 => simp [encode, decode, opTop_wordNnn, opNnn_wordNnn]
  | seImm | sneImm | ldImm | addImm | rnd | skp | sknp =>
    simp [encode, decode, opTop_wordXkk, opX_wordXkk, opNn_wordXkk]
  | seReg | sneReg | drw => simp [encode, decode, opTop_wordXyn, opX_wordXyn, opY_wordXyn, opN_wordXyn]
  | ldReg | orReg | andReg | xorReg | addReg | sub | shr | subn | shl =>
    simp [encode, decode, decode8, opTop_wordXyn, opX_wordXyn, opY_wordXyn, opN_wordXyn]
  | ldVxDt | ldVxK | ldDtVx | ldStVx | addI | ldF | ldB | storeRegs | loadRegs =>
    simp [encode, decode, decodeF, opTop_wordXkk, opX_wordXkk, opNn_wordXkk]

end Sys2Proof
end

section
/-! The jumps and the conditional skips (40_flow.md R121, R123 to R128): the next state of each, and its word. -/

namespace Sys2Proof.Machine

open Sys2Proof.Claims (nextPc)

variable (s : State)

/-! ### jumps -/

/-- An address of 12 bits is not changed by the reduction mod 4096. -/
theorem addr12_toNat_eq_setWidth (nnn : BitVec 12) : addr12 nnn.toNat = nnn.setWidth 16 := by
  apply BitVec.eq_of_toNat_eq
  have := nnn.isLt
  rw [addr12_toNat, BitVec.toNat_setWidth]
  omega

theorem exec_jp (nnn : BitVec 12) : exec (.jp nnn) s = .next { s with pc := nnn.setWidth 16 } := by
  rw [← addr12_toNat_eq_setWidth]
  rfl

theorem exec_jpV0 (nnn : BitVec 12) :
    exec (.jpV0 nnn) s = .next { s with pc := BitVec.ofNat 16 (((s.reg 0).toNat + nnn.toNat) % 4096) } :=
  rfl

/-! ### skips -/

/-- A skip changes PC alone: by 4 where its condition holds, by 2 where it does not (R128). -/
theorem State.skipIf_eq {c : Bool} {p : Prop} [Decidable p] (h : c = true ↔ p) :
    s.skipIf c = .next { s with pc := if p then nextPc s 4 else nextPc s 2 } := by
  by_cases hp : p
  · rw [if_pos hp, h.2 hp]
    rfl
  · rw [if_neg hp, Bool.eq_false_iff.2 (mt h.1 hp)]
    rfl

theorem exec_seImm (x : Reg) (kk : Byte) :
    exec (.seImm x kk) s = .next { s with pc := if s.reg x = kk then nextPc s 4 else nextPc s 2 } :=
  s.skipIf_eq beq_iff_eq

theorem exec_sneImm (x : Reg) (kk : Byte) :
    exec (.sneImm x kk) s = .next { s with pc := if s.reg x ≠ kk then nextPc s 4 else nextPc s 2 } :=
  s.skipIf_eq bne_iff_ne

theorem exec_seReg (x y : Reg) :
    exec (.seReg x y) s = .next { s with pc := if s.reg x = s.reg y then nextPc s 4 else nextPc s 2 } :=
  s.skipIf_eq beq_iff_eq

theorem exec_sneReg (x y : Reg) :
    exec (.sneReg x y) s = .next { s with pc := if s.reg x ≠ s.reg y then nextPc s 4 else nextPc s 2 } :=
  s.skipIf_eq bne_iff_ne

/-! ### the obligations -/

/-- Settles O15: 1nnn is the encoder's word of JP, and its 12-bit target needs no reduction. -/
theorem jumpSetsPc : Obligations.JumpSetsPc := fun nnn s =>
  ⟨decode_encode (.jp nnn), exec_jp s nnn⟩

/-- Settles O21: 3xkk and 4xkk are the encoder's words of SE and SNE, each a skip on its comparison. -/
theorem immediateSkips : Obligations.ImmediateSkips := fun x kk s =>
  ⟨⟨decode_encode (.seImm x kk), exec_seImm s x kk⟩, ⟨decode_encode (.sneImm x kk), exec_sneImm s x kk⟩⟩

/-- Settles O22: 5xy0 and 9xy0 are the encoder's words of SE and SNE, each a skip on its comparison. -/
theorem registerSkips : Obligations.RegisterSkips := fun x y s =>
  ⟨⟨decode_encode (.seReg x y), exec_seReg s x y⟩, ⟨decode_encode (.sneReg x y), exec_sneReg s x y⟩⟩

/-- Settles O23: Bnnn is the encoder's word of JP V0, which jumps to the reduced sum. -/
theorem jumpThroughV0 : Obligations.JumpThroughV0 := fun nnn s =>
  ⟨decode_encode (.jpV0 nnn), exec_jpV0 s nnn⟩

end Sys2Proof.Machine
end

section
/-! The instructions that write one register and no flag (41_load_alu.md R130 to R135): what the write leaves in the
register file, the byte each of them writes, and its word. -/

namespace Sys2Proof.Machine

open Sys2Proof.Claims (at_ nextPc)

variable (s : State)

/-! ### one register written -/

/-- A register file after a write, in the word of the claims: the written register, and every other as before. -/
theorem State.at_setReg_v (x : Reg) (b : Byte) (r : Reg) :
    at_ (s.setReg x b).v r = if r = x then b else s.reg r :=
  s.setReg_reg x b r

/-- An instruction that ends after one register write changes that register and PC alone. -/
theorem exec_of_setReg_done {s : State} {i : Instr} {x : Reg} {b : Byte} (h : exec i s = (s.setReg x b).done) :
    ∃ v, exec i s = .next { s with v := v, pc := nextPc s 2 } ∧ ∀ r, at_ v r = if r = x then b else s.reg r :=
  ⟨(s.setReg x b).v, h, s.at_setReg_v x b⟩

/-! ### the byte each instruction writes -/

theorem exec_ldImm (x : Reg) (kk : Byte) : exec (.ldImm x kk) s = (s.setReg x kk).done := rfl

/-- The sum of two bytes, as the claims write it: the unreduced sum mod 256. -/
theorem byte_add_eq (a b : Byte) : a + b = BitVec.ofNat 8 ((a.toNat + b.toNat) % 256) := by
  apply BitVec.eq_of_toNat_eq
  rw [BitVec.toNat_add, BitVec.toNat_ofNat, Nat.mod_mod]

theorem exec_addImm (x : Reg) (kk : Byte) :
    exec (.addImm x kk) s = (s.setReg x (BitVec.ofNat 8 (((s.reg x).toNat + kk.toNat) % 256))).done := by
  rw [← byte_add_eq]
  rfl

theorem exec_ldReg (x y : Reg) : exec (.ldReg x y) s = (s.setReg x (s.reg y)).done := rfl

theorem exec_orReg (x y : Reg) : exec (.orReg x y) s = (s.setReg x (s.reg x ||| s.reg y)).done := rfl

theorem exec_andReg (x y : Reg) : exec (.andReg x y) s = (s.setReg x (s.reg x &&& s.reg y)).done := rfl

theorem exec_xorReg (x y : Reg) : exec (.xorReg x y) s = (s.setReg x (s.reg x ^^^ s.reg y)).done := rfl

/-! ### the obligations -/

/-- Settles O24: 6xkk is the encoder's word of LD Vx, kk, whose only register write is kk to V[x]. -/
theorem loadImmediate : Obligations.LoadImmediate := fun x kk s =>
  ⟨decode_encode (.ldImm x kk), exec_of_setReg_done (exec_ldImm s x kk)⟩

/-- Settles O25: 7xkk is the encoder's word of ADD Vx, kk, whose only register write is the reduced sum to V[x]. -/
theorem addImmediateWithoutFlag : Obligations.AddImmediateWithoutFlag := fun x kk s =>
  ⟨decode_encode (.addImm x kk), exec_of_setReg_done (exec_addImm s x kk)⟩

/-- Settles O26: 8xy0 to 8xy3 are the encoder's words of LD, OR, AND and XOR, each with one register write, to V[x]. -/
theorem copyAndLogicWithoutFlag : Obligations.CopyAndLogicWithoutFlag := fun x y s =>
  ⟨⟨decode_encode (.ldReg x y), exec_of_setReg_done (exec_ldReg s x y)⟩,
   ⟨decode_encode (.orReg x y), exec_of_setReg_done (exec_orReg s x y)⟩,
   ⟨decode_encode (.andReg x y), exec_of_setReg_done (exec_andReg s x y)⟩,
   ⟨decode_encode (.xorReg x y), exec_of_setReg_done (exec_xorReg s x y)⟩⟩

end Sys2Proof.Machine
end

section
/-! The instructions that write I (42_index_memory.md R150 to R152): the address each of them leaves, the carry of Fx1E,
and the word of each. -/

namespace Sys2Proof.Machine

open Sys2Proof.Claims (at_ nextPc)

variable (s : State)

/-! ### the next states -/

theorem exec_ldI (nnn : BitVec 12) :
    exec (.ldI nnn) s = .next { s with i := nnn.setWidth 16, pc := nextPc s 2 } := by
  rw [← addr12_toNat_eq_setWidth]
  rfl

/-- Five times a byte is at most 1275, so the reduction mod 4096 leaves every glyph address as it is. -/
theorem addr12_glyphAddr (b : Byte) : addr12 (glyphAddr b) = BitVec.ofNat 16 (b.toNat * 5) := by
  have hlt : b.toNat * 5 < 4096 := by omega
  rw [addr12, glyphAddr, Nat.mod_eq_of_lt hlt]

theorem exec_ldF (x : Reg) :
    exec (.ldF x) s = .next { s with i := BitVec.ofNat 16 ((s.reg x).toNat * 5), pc := nextPc s 2 } := by
  rw [← addr12_glyphAddr]
  rfl

/-- The flag of Fx1E is 1 exactly where the unreduced sum needs a 13th bit. -/
theorem indexCarryFlag_eq (i : Word) (b : Byte) :
    indexCarryFlag i b = if 0xFFF < i.toNat + b.toNat then 1 else 0 := by
  simp only [indexCarryFlag, flagByte, decide_eq_true_eq]

/-- Fx1E writes I and VF, both computed from the registers before either write. -/
theorem exec_addI (x : Reg) :
    exec (.addI x) s = .next { s with
      v := (s.setReg vf (indexCarryFlag s.i (s.reg x))).v
      i := BitVec.ofNat 16 ((s.i.toNat + (s.reg x).toNat) % 4096)
      pc := nextPc s 2 } :=
  rfl

/-! ### the obligations -/

/-- Settles O31: Annn is the encoder's word of LD I, and its 12-bit address needs no reduction. -/
theorem loadIndex : Obligations.LoadIndex := fun nnn s =>
  ⟨decode_encode (.ldI nnn), exec_ldI s nnn⟩

/-- Settles O32: Fx1E is the encoder's word of ADD I, whose only register write is the carry to VF. -/
theorem addToIndexSetsCarry : Obligations.AddToIndexSetsCarry := by
  intro x s
  refine ⟨decode_encode (.addI x), _, exec_addI s x, fun r => ?_⟩
  rw [← indexCarryFlag_eq]
  exact s.at_setReg_v vf (indexCarryFlag s.i (s.reg x)) r

/-- Settles O33: Fx29 is the encoder's word of LD F, and no glyph address needs a reduction. -/
theorem glyphAddress : Obligations.GlyphAddress := fun x s =>
  ⟨decode_encode (.ldF x), exec_ldF s x⟩

end Sys2Proof.Machine
end

section
/-! The instructions that move bytes between memory and the registers (42_index_memory.md R153 to R155): each is one write
of bytes at I or one block load from I, and what is read back after it. -/

namespace Sys2Proof.Machine

open Sys2Proof.Claims (at_ nextPc)

variable (s : State)

/-! ### stores -/

/-- An instruction that ends after one write of bytes changes memory and PC alone. -/
theorem State.writeBytes_done (addr : Nat) (bs : List Byte) :
    (s.writeBytes addr bs).done = .next { s with mem := (s.writeBytes addr bs).mem, pc := nextPc s 2 } :=
  congrArg State.done (s.writeBytes_eq addr bs)

theorem exec_ldB (x : Reg) :
    exec (.ldB x) s = .next { s with
      mem := (s.writeBytes s.i.toNat (bcdDigits (s.reg x))).mem
      pc := nextPc s 2 } :=
  s.writeBytes_done s.i.toNat (bcdDigits (s.reg x))

theorem exec_storeRegs (x : Reg) :
    exec (.storeRegs x) s = .next { s with
      mem := (s.writeBytes s.i.toNat (s.regsUpTo x)).mem
      pc := nextPc s 2 } :=
  s.writeBytes_done s.i.toNat (s.regsUpTo x)

/-- Memory after three bytes are written: each at its own address, and every other byte as before. -/
theorem State.memRead_writeBytes_three (addr : Nat) (b₀ b₁ b₂ : Byte) (a : Nat) :
    (s.writeBytes addr [b₀, b₁, b₂]).memRead a =
      if a % 4096 = addr % 4096 then b₀
      else if a % 4096 = (addr + 1) % 4096 then b₁
      else if a % 4096 = (addr + 2) % 4096 then b₂
      else s.memRead a := by
  have hl : [b₀, b₁, b₂].length ≤ 4096 := by simp
  split_ifs with h0 h1 h2
  · exact s.memRead_writeBytes addr _ hl 0 (by simp) a h0
  · exact s.memRead_writeBytes addr _ hl 1 (by simp) a h1
  · exact s.memRead_writeBytes addr _ hl 2 (by simp) a h2
  · refine s.memRead_writeBytes_of_ne addr _ a fun k hk => ?_
    have hk3 : k < 3 := hk
    interval_cases k
    · exact h0
    · exact h1
    · exact h2

/-- The register stored j bytes past the start of a block store is read back there. -/
theorem State.memRead_writeBytes_regsUpTo (addr : Nat) {x j : Reg} (h : j.toNat ≤ x.toNat) :
    (s.writeBytes addr (s.regsUpTo x)).memRead (addr + j.toNat) = s.reg j := by
  have hlen := s.regsUpTo_length x
  have hj : j.toNat < (s.regsUpTo x).length := by omega
  rw [s.memRead_writeBytes addr (s.regsUpTo x) (by omega) j.toNat hj _ rfl, s.regsUpTo_get x j.toNat hj,
    BitVec.ofNat_toNat, BitVec.setWidth_eq]

/-- A byte at none of the addresses of a block store reads as before. -/
theorem State.memRead_writeBytes_regsUpTo_of_ne (addr : Nat) (x : Reg) {a : Nat}
    (h : ∀ j ≤ x.toNat, a % 4096 ≠ (addr + j) % 4096) :
    (s.writeBytes addr (s.regsUpTo x)).memRead a = s.memRead a := by
  refine s.memRead_writeBytes_of_ne addr (s.regsUpTo x) a fun j hj => h j ?_
  rw [s.regsUpTo_length] at hj
  exact Nat.le_of_lt_succ hj

/-! ### the block load -/

theorem exec_loadRegs (x : Reg) :
    exec (.loadRegs x) s = .next { s with
      v := (s.loadRegsFrom s.i.toNat (x.toNat + 1)).v
      pc := nextPc s 2 } :=
  congrArg State.done (s.loadRegsFrom_eq s.i.toNat (x.toNat + 1))

/-- The registers after a block load up to V[x], in the word of the claims. -/
theorem State.at_loadRegsFrom_v (addr : Nat) (x r : Reg) :
    at_ (s.loadRegsFrom addr (x.toNat + 1)).v r =
      if r.toNat ≤ x.toNat then s.memRead (addr + r.toNat) else s.reg r := by
  have hreg := s.loadRegsFrom_reg addr (x.toNat + 1) x.isLt r
  simp only [Nat.lt_succ_iff] at hreg
  exact hreg

/-! ### the obligations -/

/-- Settles O34: Fx33 is the encoder's word of LD B, which writes the three digits at I and nothing else. -/
theorem decimalDigitsStored : Obligations.DecimalDigitsStored := by
  intro x s
  refine ⟨decode_encode (.ldB x), _, exec_ldB s x, fun a => ?_⟩
  rw [State.read_writeBytes_mem]
  exact s.memRead_writeBytes_three s.i.toNat _ _ _ a

/-- Settles O35: Fx55 is the encoder's word of LD [I], Vx, which writes V0 to Vx at I and nothing else. -/
theorem registersStored : Obligations.RegistersStored := by
  intro x s
  refine ⟨decode_encode (.storeRegs x), _, exec_storeRegs s x, fun j hj => ?stored, fun a ha => ?other⟩
  case stored =>
    rw [State.read_writeBytes_mem]
    exact s.memRead_writeBytes_regsUpTo s.i.toNat hj
  case other =>
    rw [State.read_writeBytes_mem]
    exact s.memRead_writeBytes_regsUpTo_of_ne s.i.toNat x ha

/-- Settles O36: Fx65 is the encoder's word of LD Vx, [I], a block load from I of the x + 1 lowest registers. -/
theorem registersLoaded : Obligations.RegistersLoaded := fun x s =>
  ⟨decode_encode (.loadRegs x), _, exec_loadRegs s x, s.at_loadRegsFrom_v s.i.toNat x⟩

end Sys2Proof.Machine
end

section
/-! The clear screen (43_display.md R160): 00E0 puts the blank framebuffer in place and sets dirty; it writes no
register, VF included. -/

namespace Sys2Proof.Machine

open Sys2Proof.Claims (nextPc)

/-- The framebuffer of 64 zero columns has no pixel set, on the screen or off it. -/
theorem pixel_blank (px py : Nat) : pixel (Vector.replicate 64 0) px py = false := by
  unfold pixel
  split
  case isTrue h =>
    rw [Vector.getElem_replicate]
    exact BitVec.getLsbD_zero
  case isFalse => rfl

theorem exec_cls (s : State) :
    exec .cls s = .next { s with fb := Vector.replicate 64 0, dirty := true, pc := nextPc s 2 } :=
  rfl

/-- Settles O40: 00E0 is the encoder's word of CLS, whose new framebuffer is the blank one. -/
theorem clearScreen : Obligations.ClearScreen := fun s =>
  ⟨decode_encode .cls, _, exec_cls s, pixel_blank⟩

end Sys2Proof.Machine
end

section
/-! The delay timer's two moves (44_keys_timers.md R173, R174): Fx07 writes DT to one register, Fx15 one register to DT,
and the word of each. -/

namespace Sys2Proof.Machine

open Sys2Proof.Claims (nextPc)

variable (s : State)

theorem exec_ldVxDt (x : Reg) : exec (.ldVxDt x) s = (s.setReg x s.dt).done := rfl

theorem exec_ldDtVx (x : Reg) : exec (.ldDtVx x) s = .next { s with dt := s.reg x, pc := nextPc s 2 } := rfl

/-- Settles O45: Fx07 is the encoder's word of LD Vx, DT, whose only register write is DT to V[x]; Fx15 is that of
LD DT, Vx, which writes V[x] to DT. -/
theorem delayTimerMoves : Obligations.DelayTimerMoves := fun x s =>
  ⟨⟨decode_encode (.ldVxDt x), exec_of_setReg_done (exec_ldVxDt s x)⟩,
   ⟨decode_encode (.ldDtVx x), exec_ldDtVx s x⟩⟩

end Sys2Proof.Machine
end

section
/-! The timer tick (60_exceptions.md R200, R202): one countdown on each timer, in the words of the claims, and the beep
on the sound timer's step from 1 to 0. -/

namespace Sys2Proof.Machine

/-- The countdown is subtraction on the natural numbers: it stops at 0 where a byte's own would wrap to 255. -/
theorem countDown_toNat (b : Byte) : (countDown b).toNat = b.toNat - 1 := by
  unfold countDown
  split_ifs with h
  case pos => simp [h]
  case neg =>
    have hpos : b.toNat ≠ 0 := fun h0 => h (BitVec.eq_of_toNat_eq h0)
    exact BitVec.toNat_sub_of_le (BitVec.le_def.mpr (Nat.one_le_iff_ne_zero.mpr hpos))

theorem countDown_eq_ofNat (b : Byte) : countDown b = BitVec.ofNat 8 (b.toNat - 1) := by
  rw [← countDown_toNat, BitVec.ofNat_toNat, BitVec.setWidth_eq]

theorem apply_tick (s : State) :
    Event.apply .tick s = .next { s with
      dt := BitVec.ofNat 8 (s.dt.toNat - 1), st := BitVec.ofNat 8 (s.st.toNat - 1) } := by
  rw [← countDown_eq_ofNat, ← countDown_eq_ofNat]
  rfl

theorem outputs_tick (s : State) :
    Event.outputs .tick s = if s.st.toNat = 1 then [.beep] else [] :=
  if_congr (BitVec.toNat_inj (y := 1)).symm rfl rfl

/-- Settles O47: a tick counts both timers down, and it beeps exactly where the sound timer goes from 1 to 0. -/
theorem tickCountsDown : Obligations.TickCountsDown := fun s => ⟨apply_tick s, outputs_tick s⟩

end Sys2Proof.Machine
end

section
/-! The decoder and the encoder as inverses (30_encoding.md R94 to R97): bytes in memory order, and the word of a decoded
instruction. -/

namespace Sys2Proof

variable {w : Word} {i : Instr}

/-- An instruction's bytes decode to it, whatever follows them. -/
theorem decodeBytes_encodeBytes (i : Instr) (rest : List Byte) :
    decodeBytes (encodeBytes i ++ rest) = .ok (i, rest) := by
  have hw : decode (wordOfBytes (hiByte (encode i)) (loByte (encode i))) = .ok i := by
    rw [wordOfBytes_bytes, decode_encode]
  simp only [encodeBytes, List.cons_append, List.nil_append, decodeBytes, hw]

/-- Settles O1: the fields of an encoded word select its own arm of the decode tree, and its two bytes join to it. -/
theorem decodeInvertsEncode : Obligations.DecodeInvertsEncode := fun i rest =>
  ⟨decode_encode i, decodeBytes_encodeBytes i rest⟩

/-! ### the other direction: a recognized word is the word of its instruction -/

/-- The sixteen families of words: the values of the nibble that selects an arm of the decode tree. -/
theorem family_cases (t : BitVec 4) :
    t = 0x0#4 ∨ t = 0x1#4 ∨ t = 0x2#4 ∨ t = 0x3#4 ∨ t = 0x4#4 ∨ t = 0x5#4 ∨ t = 0x6#4 ∨ t = 0x7#4 ∨ t = 0x8#4 ∨
      t = 0x9#4 ∨ t = 0xA#4 ∨ t = 0xB#4 ∨ t = 0xC#4 ∨ t = 0xD#4 ∨ t = 0xE#4 ∨ t = 0xF#4 := by
  revert t
  decide

theorem wordNnn_of_top {t : BitVec 4} (ht : opTop w = t) : wordNnn t (opNnn w) = w :=
  ht ▸ wordNnn_fields w

theorem wordXkk_of_fields {t : BitVec 4} {kk : Byte} (ht : opTop w = t) (hkk : opNn w = kk) :
    wordXkk t (opX w) kk = w :=
  ht ▸ hkk ▸ wordXkk_fields w

theorem wordXyn_of_fields {t n : BitVec 4} (ht : opTop w = t) (hn : opN w = n) :
    wordXyn t (opX w) (opY w) n = w :=
  ht ▸ hn ▸ wordXyn_fields w

theorem encode_of_decode8 (ht : opTop w = 0x8#4) (h : decode8 w = .ok i) : encode i = w := by
  unfold decode8 at h
  split at h
  all_goals cases h
  all_goals
    rename_i hn
    exact wordXyn_of_fields ht hn

theorem encode_of_decodeF (ht : opTop w = 0xF#4) (h : decodeF w = .ok i) : encode i = w := by
  unfold decodeF at h
  split at h
  all_goals cases h
  all_goals
    rename_i hnn
    exact wordXkk_of_fields ht hnn

/-- Settles O2: in each family the decoder tests every fixed nibble of the word and keeps every other as an operand. -/
theorem encodeInvertsDecode : Obligations.EncodeInvertsDecode := by
  intro w i h
  rcases family_cases (opTop w) with
    ht | ht | ht | ht | ht | ht | ht | ht | ht | ht | ht | ht | ht | ht | ht | ht
  all_goals simp only [decode, ht] at h
  · split_ifs at h with hcls hret
    · cases h; exact hcls.symm
    · cases h; exact hret.symm
  · cases h; exact wordNnn_of_top ht
  · cases h; exact wordNnn_of_top ht
  · cases h; exact wordXkk_of_fields ht rfl
  · cases h; exact wordXkk_of_fields ht rfl
  · split_ifs at h with hn
    cases h; exact wordXyn_of_fields ht hn
  · cases h; exact wordXkk_of_fields ht rfl
  · cases h; exact wordXkk_of_fields ht rfl
  · exact encode_of_decode8 ht h
  · split_ifs at h with hn
    cases h; exact wordXyn_of_fields ht hn
  · cases h; exact wordNnn_of_top ht
  · cases h; exact wordNnn_of_top ht
  · cases h; exact wordXkk_of_fields ht rfl
  · cases h; exact wordXyn_of_fields ht rfl
  · split_ifs at h with hskp hsknp
    · cases h; exact wordXkk_of_fields ht hskp
    · cases h; exact wordXkk_of_fields ht hsknp
  · exact encode_of_decodeF ht h

end Sys2Proof
end

section
/-! The opcode map as masks (30_encoding.md R96): no two rows share a word, and the decoder takes every word of a row. -/

namespace Sys2Proof

open Sys2Proof.Laws

variable {w : Word} {i : Instr}

/-! ### a word of a row is of that row alone -/

theorem matchesRow_iff (row : Word × Word) : matchesRow w row = true ↔ w &&& row.1 = row.2 :=
  beq_iff_eq

/-- Two rows differ in a bit that both of them fix. -/
theorem opcodeRows_pairwise_ne :
    opcodeRows.Pairwise fun p q => p.2 &&& (p.1 &&& q.1) ≠ q.2 &&& (p.1 &&& q.1) := by
  decide

/-- On the bits that two rows fix, a word of both has the bits of both. -/
theorem match_eq_of_matchesRow {p q : Word × Word} (hp : matchesRow w p = true) (hq : matchesRow w q = true) :
    p.2 &&& (p.1 &&& q.1) = q.2 &&& (p.1 &&& q.1) := by
  rw [← (matchesRow_iff p).1 hp, ← (matchesRow_iff q).1 hq]
  ext k
  simp only [BitVec.getElem_and]
  cases w[k] <;> cases p.1[k] <;> cases q.1[k] <;> rfl

/-- A filter that takes one element of a list, and no two of them together, leaves that element. -/
theorem filter_eq_singleton {α : Type} {f : α → Bool} {l : List α} {a : α}
    (hl : l.Pairwise fun b c => ¬ (f b = true ∧ f c = true)) (ha : a ∈ l) (hfa : f a = true) : l.filter f = [a] := by
  induction l with
  | nil => cases ha
  | cons b l ih =>
    rw [List.pairwise_cons] at hl
    obtain ⟨hb, hl⟩ := hl
    rcases List.mem_cons.1 ha with rfl | hmem
    · have hnone : l.filter f = [] := List.filter_eq_nil_iff.2 fun c hc hfc => hb c hc ⟨hfa, hfc⟩
      rw [List.filter_cons_of_pos hfa, hnone]
    · rw [List.filter_cons_of_neg fun hfb => hb a hmem ⟨hfb, hfa⟩, ih hl hmem]

theorem patternOf_mem_opcodeRows (i : Instr) : patternOf i ∈ opcodeRows := by
  cases i <;> simp [opcodeRows, rowInstrs, patternOf]

theorem matchesRow_encode (i : Instr) : matchesRow (encode i) (patternOf i) = true := by
  cases i
  exacts [RowWord.cls, RowWord.ret, RowWord.jp _, RowWord.call _, RowWord.seImm _ _, RowWord.sneImm _ _,
    RowWord.seReg _ _, RowWord.ldImm _ _, RowWord.addImm _ _, RowWord.ldReg _ _, RowWord.orReg _ _,
    RowWord.andReg _ _, RowWord.xorReg _ _, RowWord.addReg _ _, RowWord.sub _ _, RowWord.shr _ _,
    RowWord.subn _ _, RowWord.shl _ _, RowWord.sneReg _ _, RowWord.ldI _, RowWord.jpV0 _, RowWord.rnd _ _,
    RowWord.drw _ _ _, RowWord.skp _, RowWord.sknp _, RowWord.ldVxDt _, RowWord.ldVxK _, RowWord.ldDtVx _,
    RowWord.ldStVx _, RowWord.addI _, RowWord.ldF _, RowWord.ldB _, RowWord.storeRegs _, RowWord.loadRegs _]

/-- The word of an instruction is of the row of that instruction alone. -/
theorem rows_of_encode (i : Instr) : opcodeRows.filter (matchesRow (encode i)) = [patternOf i] :=
  filter_eq_singleton (opcodeRows_pairwise_ne.imp fun hne h => hne (match_eq_of_matchesRow h.1 h.2))
    (patternOf_mem_opcodeRows i) (matchesRow_encode i)

/-! ### a word of a row is recognized -/

/-- Where the mask keeps a field whole, a word of the row has the field of the row's match. -/
theorem field_of_match {m v : Word} (start len : Nat) (h : w &&& m = v)
    (hm : m.extractLsb' start len = BitVec.allOnes len) : w.extractLsb' start len = v.extractLsb' start len := by
  rw [← h, BitVec.extractLsb'_and, hm, BitVec.and_allOnes]

theorem decode_ok_of_matchesRow (h : matchesRow w (patternOf i) = true) : ∃ j, decode w = .ok j := by
  rw [matchesRow_iff] at h
  cases i
  all_goals simp only [patternOf] at h
  case cls =>
    have hw : w = 0x00E0 := (BitVec.and_allOnes (x := w)).symm.trans h
    exact ⟨.cls, congrArg decode hw⟩
  case ret =>
    have hw : w = 0x00EE := (BitVec.and_allOnes (x := w)).symm.trans h
    exact ⟨.ret, congrArg decode hw⟩
  case jp | call | seImm | sneImm | ldImm | addImm | ldI | jpV0 | rnd | drw =>
    have ht : opTop w = _ := field_of_match 12 4 h (by decide)
    simp [decode, ht]
  case seReg | sneReg =>
    have ht : opTop w = _ := field_of_match 12 4 h (by decide)
    have hn : opN w = _ := field_of_match 0 4 h (by decide)
    simp [decode, ht, hn]
  case ldReg | orReg | andReg | xorReg | addReg | sub | shr | subn | shl =>
    have ht : opTop w = _ := field_of_match 12 4 h (by decide)
    have hn : opN w = _ := field_of_match 0 4 h (by decide)
    simp [decode, decode8, ht, hn]
  case skp | sknp =>
    have ht : opTop w = _ := field_of_match 12 4 h (by decide)
    have hnn : opNn w = _ := field_of_match 0 8 h (by decide)
    simp [decode, ht, hnn]
  case ldVxDt | ldVxK | ldDtVx | ldStVx | addI | ldF | ldB | storeRegs | loadRegs =>
    have ht : opTop w = _ := field_of_match 12 4 h (by decide)
    have hnn : opNn w = _ := field_of_match 0 8 h (by decide)
    simp [decode, decodeF, ht, hnn]

/-- Settles O3: a recognized word is the word of its instruction, whose row no other row overlaps; and a word of some row
is recognized, so an unrecognized one is of none. -/
theorem recognizedWordMatchesOneRow : Obligations.RecognizedWordMatchesOneRow := by
  intro w
  constructor
  · intro i h
    rw [← encodeInvertsDecode w i h]
    exact rows_of_encode i
  · intro r h
    refine List.filter_eq_nil_iff.2 fun row hrow hm => ?_
    obtain ⟨i, -, rfl⟩ := List.mem_map.1 hrow
    obtain ⟨j, hj⟩ := decode_ok_of_matchesRow hm
    rw [hj] at h
    cases h

end Sys2Proof
end

section
/-! The unrecognized words (30_encoding.md R95, R98): under which family the decoder rejects a word, and when. -/

namespace Sys2Proof

variable {w : Word} {r : Rejected}

/-- The nibbles that select no arm of family 8. -/
theorem decode8_error_iff :
    decode8 w = .error r ↔ r = .family8 ∧ opN w ∈ [0x8#4, 0x9#4, 0xA#4, 0xB#4, 0xC#4, 0xD#4, 0xF#4] := by
  unfold decode8
  generalize opN w = n
  rcases family_cases n with
    rfl | rfl | rfl | rfl | rfl | rfl | rfl | rfl | rfl | rfl | rfl | rfl | rfl | rfl | rfl | rfl
  all_goals simp [eq_comm]

/-- The bytes that select no arm of family F. -/
theorem decodeF_error_iff :
    decodeF w = .error r ↔
      r = .familyF ∧ opNn w ∉ [0x07#8, 0x0A#8, 0x15#8, 0x18#8, 0x1E#8, 0x29#8, 0x33#8, 0x55#8, 0x65#8] := by
  unfold decodeF
  split <;> simp_all [eq_comm]

/-- The fields under which the decoder rejects a word, one family of words each; only bytes can be truncated. -/
def rejectedAs (w : Word) : Rejected → Prop
  | .truncated => False
  | .family0 => opTop w = 0x0 ∧ w ≠ 0x00E0 ∧ w ≠ 0x00EE
  | .family5 => opTop w = 0x5 ∧ opN w ≠ 0
  | .family8 => opTop w = 0x8 ∧ opN w ∈ [0x8#4, 0x9#4, 0xA#4, 0xB#4, 0xC#4, 0xD#4, 0xF#4]
  | .family9 => opTop w = 0x9 ∧ opN w ≠ 0
  | .familyE => opTop w = 0xE ∧ opNn w ∉ [0x9E#8, 0xA1#8]
  | .familyF => opTop w = 0xF ∧ opNn w ∉ [0x07#8, 0x0A#8, 0x15#8, 0x18#8, 0x1E#8, 0x29#8, 0x33#8, 0x55#8, 0x65#8]

/-- A test of the decode tree rejects a word only where it fails. -/
theorem ite_ok_eq_error {c : Prop} [Decidable c] {i : Instr} {e : Except Rejected Instr} :
    (if c then .ok i else e) = .error r ↔ ¬ c ∧ e = .error r := by
  split_ifs with hc <;> simp [hc]

/-- In each family, the tests of its arm leave one reason to reject and no other. -/
theorem decode_error_iff : decode w = .error r ↔ rejectedAs w r := by
  rcases family_cases (opTop w) with
    ht | ht | ht | ht | ht | ht | ht | ht | ht | ht | ht | ht | ht | ht | ht | ht
  all_goals cases r
  all_goals simp [decode, ht, rejectedAs, ite_ok_eq_error, decode8_error_iff, decodeF_error_iff]

/-- Settles O4: each family's rejected words, read off the decode tree. -/
theorem unrecognizedWordsByFamily : Obligations.UnrecognizedWordsByFamily := fun _ =>
  ⟨decode_error_iff, decode_error_iff, decode_error_iff, decode_error_iff, decode_error_iff, decode_error_iff,
   decode_error_iff.1⟩

/-- Settles O5: the ten words evaluated. -/
theorem sampleWordsDecode : Obligations.SampleWordsDecode :=
  ⟨rfl, rfl, rfl, rfl, rfl, rfl, rfl, rfl, rfl, rfl⟩

end Sys2Proof
end

section
/-! CALL and RET (40_flow.md R120, R122; 60_exceptions.md R180, R184): the next state of each below and at its stack
limit, and that an instruction takes a fault nowhere else. -/

namespace Sys2Proof.Machine

open Sys2Proof.Claims (nextPc)

variable {s t : State}

/-! ### the next states -/

theorem exec_call_of_lt (nnn : BitVec 12) (h : s.sp.val < 16) :
    exec (.call nnn) s = .next { s with
      stack := s.stack.set s.sp.val s.pc h, sp := ⟨s.sp.val + 1, by omega⟩, pc := nnn.setWidth 16 } := by
  obtain ⟨hfull, -⟩ | ⟨hlt, hpush⟩ := s.push_cases s.pc
  · omega
  · rw [exec, execCall, hpush, ← addr12_toNat_eq_setWidth]
    rfl

theorem exec_call_of_full (nnn : BitVec 12) (h : s.sp.val = 16) :
    exec (.call nnn) s = .next { s with fault := some .stackOverflow } :=
  execCall_overflow nnn s h

theorem exec_ret_of_pos (h : 0 < s.sp.val) :
    exec .ret s = .next { s with
      sp := ⟨s.sp.val - 1, by omega⟩
      pc := BitVec.ofNat 16 (((s.stack[s.sp.val - 1]'(by omega)).toNat + 2) % 4096) } := by
  obtain ⟨hempty, -⟩ | ⟨hpos, hpop⟩ := s.pop_cases
  · omega
  · rw [exec, execRet, hpop]
    rfl

theorem exec_ret_of_empty (h : s.sp.val = 0) : exec .ret s = .next { s with fault := some .stackUnderflow } :=
  execRet_underflow s h

/-- Everything a CALL can do. -/
theorem exec_call_cases {nnn : BitVec 12} (h : exec (.call nnn) s = .next t) :
    (s.sp.val = 16 ∧ t = { s with fault := some .stackOverflow }) ∨
    ∃ hsp : s.sp.val < 16, t = { s with
      stack := s.stack.set s.sp.val s.pc hsp, sp := ⟨s.sp.val + 1, by omega⟩, pc := nnn.setWidth 16 } := by
  by_cases hfull : s.sp.val = 16
  · rw [exec_call_of_full nnn hfull] at h
    cases h
    exact .inl ⟨hfull, rfl⟩
  · have hsp : s.sp.val < 16 := by omega
    rw [exec_call_of_lt nnn hsp] at h
    cases h
    exact .inr ⟨hsp, rfl⟩

/-- Everything a RET can do. -/
theorem exec_ret_cases (h : exec .ret s = .next t) :
    (s.sp.val = 0 ∧ t = { s with fault := some .stackUnderflow }) ∨
    ∃ hsp : 0 < s.sp.val, t = { s with
      sp := ⟨s.sp.val - 1, by omega⟩
      pc := BitVec.ofNat 16 (((s.stack[s.sp.val - 1]'(by omega)).toNat + 2) % 4096) } := by
  by_cases hempty : s.sp.val = 0
  · rw [exec_ret_of_empty hempty] at h
    cases h
    exact .inl ⟨hempty, rfl⟩
  · have hsp : 0 < s.sp.val := Nat.pos_of_ne_zero hempty
    rw [exec_ret_of_pos hsp] at h
    cases h
    exact .inr ⟨hsp, rfl⟩

/-! ### the obligations -/

/-- Settles O16: 2nnn is the encoder's word of CALL, which below the limit pushes PC and jumps. -/
theorem callPushesItsOwnAddress : Obligations.CallPushesItsOwnAddress := fun nnn _ h =>
  ⟨decode_encode (.call nnn), exec_call_of_lt nnn h⟩

/-- Settles O17: 00EE is the encoder's word of RET, which above an empty stack pops and goes two past the entry. -/
theorem returnPopsTheTopEntry : Obligations.ReturnPopsTheTopEntry := fun _ h =>
  ⟨decode_encode .ret, exec_ret_of_pos h⟩

/-- Settles O20: the CALL counts one entry and leaves its address there, which the RET finds below SP. -/
theorem callThenReturnResumes : Obligations.CallThenReturnResumes := by
  intro nnn s t u hsp hcall husp hustack
  rw [exec_call_of_lt nnn hsp] at hcall
  cases hcall
  have hval : u.sp.val = s.sp.val + 1 := congrArg Fin.val husp
  have hpos : 0 < u.sp.val := by omega
  have hsp' : (⟨u.sp.val - 1, by omega⟩ : Fin 17) = s.sp := Fin.ext (by simp [hval])
  have htop : u.stack[u.sp.val - 1]'(by omega) = s.pc := by simp [hustack, hval]
  rw [exec_ret_of_pos hpos, hsp', htop]
  rfl

end Sys2Proof.Machine
end

section
/-! The step (30_encoding.md R90): its three branches, that every instruction, step and event answers a next state, and
what a CYCLE emits. -/

namespace Sys2Proof.Machine

open Sys2Proof.Claims (nextPc)

variable {s t : State} {i : Instr}

/-! ### the branches of a step -/

theorem step_of_halted {f : Fault} (h : s.fault = some f) : step s = .next s := by
  rw [step, h]
  rfl

theorem step_of_decode_ok (h : s.fault = none) (hd : decode s.fetch = .ok i) : step s = exec i s := by
  simp only [step, h, hd]

theorem step_of_decode_error {r : Rejected} (h : s.fault = none) (hd : decode s.fetch = .error r) :
    step s = .next { s with pc := nextPc s 2 } := by
  have hstep : step s = s.unrecognized := by simp only [step, h, hd]
  exact hstep

/-- A step is one of three things: idle, an instruction, or the no-op of an unrecognized word. -/
theorem step_cases (s : State) :
    (∃ f, s.fault = some f ∧ step s = .next s) ∨
    (∃ i, s.fault = none ∧ decode s.fetch = .ok i ∧ step s = exec i s) ∨
    (∃ r, s.fault = none ∧ decode s.fetch = .error r ∧ step s = .next { s with pc := nextPc s 2 }) := by
  obtain hf | ⟨f, hf⟩ := s.fault.eq_none_or_eq_some
  · cases hd : decode s.fetch with
    | ok i => exact .inr (.inl ⟨i, hf, rfl, step_of_decode_ok hf hd⟩)
    | error r => exact .inr (.inr ⟨r, hf, rfl, step_of_decode_error hf hd⟩)
  · exact .inl ⟨f, hf, step_of_halted hf⟩

/-! ### what a CYCLE emits -/

theorem outputs_cycle_of_halted {f : Fault} (h : s.fault = some f) : Event.outputs .cycle s = [] := by
  rw [Event.outputs, State.cycleOutputs, h]

theorem outputs_cycle_of_decode_error {r : Rejected} (h : s.fault = none) (hd : decode s.fetch = .error r) :
    Event.outputs .cycle s = [.unsupported s.pc s.fetch] := by
  simp only [Event.outputs, State.cycleOutputs, h, hd]

/-- An executed instruction is reported exactly where it leaves the latch set. -/
theorem outputs_cycle_of_decode_ok (h : s.fault = none) (hd : decode s.fetch = .ok i) (he : exec i s = .next t) :
    Event.outputs .cycle s = if t.fault = none then [] else [.diagnostic (faultCode t.fault) s.pc] := by
  rw [Event.outputs, State.cycleOutputs, h]
  simp only [hd, he]
  rfl

/-! ### everything answers a next state -/

theorem exec_ldVxK_of_none (x : Reg) (h : s.lowestKey = none) : exec (.ldVxK x) s = .next s := by
  rw [exec, execLdVxK, h]

theorem exec_ldVxK_of_some (x : Reg) {k : Nat} (h : s.lowestKey = some k) :
    exec (.ldVxK x) s = (s.setReg x (BitVec.ofNat 8 k)).done := by
  rw [exec, execLdVxK, h]

/-- Everything an Fx0A can do: wait, or take the least key down. -/
theorem exec_ldVxK_cases (x : Reg) (s : State) :
    (s.lowestKey = none ∧ exec (.ldVxK x) s = .next s) ∨
    ∃ k, s.lowestKey = some k ∧ exec (.ldVxK x) s = (s.setReg x (BitVec.ofNat 8 k)).done := by
  obtain h | ⟨k, h⟩ := s.lowestKey.eq_none_or_eq_some
  · exact .inl ⟨h, exec_ldVxK_of_none x h⟩
  · exact .inr ⟨k, h, exec_ldVxK_of_some x h⟩

theorem exec_next (i : Instr) (s : State) : ∃ t, exec i s = .next t := by
  cases i with
  | call nnn =>
    by_cases h : s.sp.val = 16
    · exact ⟨_, exec_call_of_full nnn h⟩
    · exact ⟨_, exec_call_of_lt nnn (by omega)⟩
  | ret =>
    by_cases h : s.sp.val = 0
    · exact ⟨_, exec_ret_of_empty h⟩
    · exact ⟨_, exec_ret_of_pos (Nat.pos_of_ne_zero h)⟩
  | ldVxK x =>
    obtain ⟨-, h⟩ | ⟨k, -, h⟩ := exec_ldVxK_cases x s
    · exact ⟨_, h⟩
    · exact ⟨_, h⟩
  | _ => exact ⟨_, rfl⟩

theorem step_next (s : State) : ∃ t, step s = .next t := by
  obtain ⟨f, -, h⟩ | ⟨i, -, -, h⟩ | ⟨r, -, -, h⟩ := step_cases s
  · exact ⟨_, h⟩
  · rw [h]
    exact exec_next i s
  · exact ⟨_, h⟩

theorem apply_next (e : Event) (s : State) : ∃ t, e.apply s = .next t := by
  cases e with
  | cycle => exact step_next s
  | _ => exact ⟨_, rfl⟩

/-! ### the obligations -/

/-- Settles O6: the branch of a step that decodes. -/
theorem stepRunsDecodedInstruction : Obligations.StepRunsDecodedInstruction := fun _ _ => step_of_decode_ok

/-- Settles O7: the two bytes fetched join to the instruction's word, which decodes to it. -/
theorem stepRunsEncodedBytes : Obligations.StepRunsEncodedBytes := by
  intro s i hf hhi hlo
  rw [s.memRead_mod] at hlo
  have hfetch : s.fetch = encode i := by
    rw [State.fetch, hhi, hlo]
    exact wordOfBytes_bytes (encode i)
  exact step_of_decode_ok hf (by rw [hfetch, decode_encode])

/-- Settles O8: the branch of a step that does not decode, and its report. -/
theorem unrecognizedWordAdvancesPc : Obligations.UnrecognizedWordAdvancesPc := fun _ _ hf hd =>
  ⟨step_of_decode_error hf hd, outputs_cycle_of_decode_error hf hd⟩

/-- Settles O9: the idle branch of a step. -/
theorem haltedCycleChangesNothing : Obligations.HaltedCycleChangesNothing := fun _ _ hf =>
  ⟨step_of_halted hf, outputs_cycle_of_halted hf⟩

/-- Settles O10: CALL, RET and Fx0A answer a next state in each of their cases, every other instruction in its only one; so
do the branches of a step and the events. -/
theorem everythingAnswersNext : Obligations.EverythingAnswersNext :=
  ⟨exec_next, step_next, apply_next⟩

/-- Settles O18: at its limit each of the two sets the latch, and the CYCLE reports the code of what it set. -/
theorem stackFaultsOnlySetTheLatch : Obligations.StackFaultsOnlySetTheLatch := by
  refine ⟨fun nnn s hsp => ⟨exec_call_of_full nnn hsp, fun hf hd => ?_⟩,
    fun s hsp => ⟨exec_ret_of_empty hsp, fun hf hd => ?_⟩⟩
  · exact outputs_cycle_of_decode_ok hf hd (exec_call_of_full nnn hsp)
  · exact outputs_cycle_of_decode_ok hf hd (exec_ret_of_empty hsp)

end Sys2Proof.Machine
end

section
/-! The invariant of 10_state.md R38 (Safety.lean): every instruction, step, event and run keeps it, and reset meets it. -/

namespace Sys2Proof.Machine

variable {s t : State} {i : Instr}

/-! ### one instruction -/

theorem exec_call_inv {nnn : BitVec 12} (hs : s.Inv) (h : exec (.call nnn) s = .next t) : t.Inv := by
  rw [exec, execCall] at h
  cases hp : s.push s.pc with
  | error f =>
    rw [hp] at h
    cases h
    exact hs.setFault _
  | ok u =>
    rw [hp] at h
    cases h
    exact (hs.push hp).jump _

theorem exec_ret_inv (hs : s.Inv) (h : exec .ret s = .next t) : t.Inv := by
  rw [exec, execRet] at h
  cases hp : s.pop with
  | error f =>
    rw [hp] at h
    cases h
    exact hs.setFault _
  | ok u =>
    rw [hp] at h
    cases h
    exact (hs.pop hp).jump _

theorem exec_ldVxK_inv {x : Reg} (hs : s.Inv) (h : exec (.ldVxK x) s = .next t) : t.Inv := by
  obtain ⟨-, e⟩ | ⟨k, -, e⟩ := exec_ldVxK_cases x s
  · rw [e] at h
    cases h
    exact hs
  · rw [e] at h
    cases h
    exact (hs.setReg x _).advance 2

/-- An instruction keeps the invariant, since each update it is made of does. -/
theorem exec_inv (hs : s.Inv) (h : exec i s = .next t) : t.Inv := by
  cases i
  case call => exact exec_call_inv hs h
  case ret => exact exec_ret_inv hs h
  case ldVxK => exact exec_ldVxK_inv hs h
  all_goals cases h
  case jp | jpV0 => exact hs.jump _
  case seImm | sneImm | seReg | sneReg | skp | sknp => exact hs.advance _
  case ldImm | addImm | ldReg | orReg | andReg | xorReg | ldVxDt => exact (hs.setReg _ _).advance 2
  case addReg | sub | shr | subn | shl => exact ((hs.setReg _ _).setReg _ _).advance 2
  case rnd => exact (hs.countDraw.setReg _ _).advance 2
  case ldI | ldF => exact (hs.setI _).advance 2
  case addI => exact ((hs.setI _).setReg _ _).advance 2
  case ldB | storeRegs => exact (hs.writeBytes _ _).advance 2
  case loadRegs => exact (hs.loadRegsFrom _ _).advance 2
  case ldDtVx => exact (hs.setDt _).advance 2
  case ldStVx => exact (hs.setSt _).advance 2
  case cls => exact (hs.setFb _ _).advance 2
  case drw => exact ((hs.setReg _ _).setFb _ _).advance 2

/-! ### steps, events, runs -/

/-- Settles O11: an idle step changes nothing, an instruction keeps the invariant, and an unrecognized word advances PC by
the same reduced sum as an instruction. -/
theorem stepKeepsConfinement : Obligations.StepKeepsConfinement := by
  intro s t hs h
  obtain ⟨f, -, e⟩ | ⟨i, -, -, e⟩ | ⟨r, -, -, e⟩ := step_cases s
  all_goals rw [e] at h
  · cases h
    exact hs
  · exact exec_inv hs h
  · cases h
    exact hs.advance 2

theorem resetWith_inv (font : Font) (draws : Nat) : (State.resetWith font draws).Inv where
  pc := (by decide : (0x200#16).toNat < 4096)
  i := (by decide : (0#16).toNat < 4096)
  stack k := by
    have hk : (State.resetWith font draws).stack[k] = 0 := Vector.getElem_replicate k.isLt
    rw [hk]
    decide
  mem := Memory.nil_wf font

theorem loadRom_inv (hs : s.Inv) (bytes : List Byte) : (s.loadRom bytes).Inv := by
  unfold State.loadRom
  split
  · exact hs.writeBytes _ _
  · exact hs

theorem apply_inv {e : Event} (hs : s.Inv) (h : e.apply s = .next t) : t.Inv := by
  cases e
  case cycle => exact stepKeepsConfinement s t hs h
  all_goals cases h
  case reset => exact resetWith_inv s.font s.draws
  case loadRom bytes => exact loadRom_inv hs bytes
  case tick => exact (hs.setDt _).setSt _
  case setKey index down => exact hs.setKey index down
  case snapshot => exact hs.setFb _ _

/-- A run of at least one event is its first event and then the rest. -/
theorem runEvents_cons {e : Event} {es : List Event} (h : runEvents (e :: es) s = .next t) :
    ∃ u, e.apply s = .next u ∧ runEvents es u = .next t := by
  obtain ⟨u, hu⟩ := apply_next e s
  rw [runEvents, hu] at h
  exact ⟨u, hu, h⟩

/-- Settles O12: by induction on the events, each of which keeps the invariant. -/
theorem everyRunStaysConfined : Obligations.EveryRunStaysConfined := by
  intro es
  induction es with
  | nil =>
    intro s t hs h
    cases h
    exact hs
  | cons e es ih =>
    intro s t hs h
    obtain ⟨u, hu, ht⟩ := runEvents_cons h
    exact ih u t (apply_inv hs hu) ht

/-! ### reset -/

/-- Settles O13: every confined field of the reset state is 0 but PC, which is 0x200, and its memory lists no cell. -/
theorem resetIsConfined : Obligations.ResetIsConfined :=
  ⟨resetWith_inv _ _, resetWith_inv⟩

/-- Settles O14: memory lists no cell, so every byte reads as unlisted; the other fields are constants. -/
theorem resetLeavesTheStatedValues : Obligations.ResetLeavesTheStatedValues := by
  refine ⟨⟨State.reset, rfl⟩, fun s => ⟨s.resetEvent, rfl, rfl, rfl, rfl, fun a => rfl, ?v, rfl, rfl, rfl, ?stack, rfl,
    rfl, pixel_blank, rfl, ?key, rfl⟩⟩
  case v => exact fun r => Vector.getElem_replicate r.isLt
  case stack => exact fun k => Vector.getElem_replicate k.isLt
  case key => exact fun k => Vector.getElem_replicate k.isLt

end Sys2Proof.Machine
end

section
/-! What each instruction may write (10_state.md R21, R22, R47), and what follows for the latch and the outputs. -/

namespace Sys2Proof.Machine

open Sys2Proof.Claims

variable {s t : State} {i : Instr}

/-- Settles O53: the updates each instruction is made of, none of which writes a field its row does not name. -/
theorem instructionWriteMatrix : Obligations.InstructionWriteMatrix := by
  intro i s t h
  cases i
  case call nnn =>
    obtain ⟨-, rfl⟩ | ⟨hsp, rfl⟩ := exec_call_cases h
    all_goals simp [writesStack]
  case ret =>
    obtain ⟨-, rfl⟩ | ⟨hsp, rfl⟩ := exec_ret_cases h
    all_goals simp [writesStack]
  case ldVxK x =>
    obtain ⟨-, e⟩ | ⟨k, -, e⟩ := exec_ldVxK_cases x s
    all_goals
      rw [e] at h
      cases h
      simp
  all_goals cases h
  all_goals simp [writesMem, writesI, writesFb]

/-- A block load leaves the registers above the last one loaded. -/
theorem State.loadRegsFrom_reg_of_gt (s : State) (addr : Nat) {x r : Reg} (h : ¬ r.toNat ≤ x.toNat) :
    (s.loadRegsFrom addr (x.toNat + 1)).reg r = s.reg r :=
  (s.at_loadRegsFrom_v addr x r).trans (if_neg h)

/-- Settles O54: each instruction writes registers only through its destination, VF or a block load, and a write shows in
its own register alone. -/
theorem registerWriters : Obligations.RegisterWriters := by
  intro i s t r h hr
  cases i
  case call nnn =>
    obtain ⟨-, rfl⟩ | ⟨hsp, rfl⟩ := exec_call_cases h
    all_goals rfl
  case ret =>
    obtain ⟨-, rfl⟩ | ⟨hsp, rfl⟩ := exec_ret_cases h
    all_goals rfl
  case ldVxK x =>
    have hne : r ≠ x := by simpa [mayWrite] using hr
    obtain ⟨-, e⟩ | ⟨k, -, e⟩ := exec_ldVxK_cases x s
    all_goals
      rw [e] at h
      cases h
    · rfl
    · simp [hne]
  all_goals cases h
  case ldImm x _ | addImm x _ | rnd x _ | ldReg x _ | orReg x _ | andReg x _ | xorReg x _ | ldVxDt x =>
    have hne : r ≠ x := by simpa [mayWrite] using hr
    simp [hne]
  case addReg x _ | sub x _ | shr x _ | subn x _ | shl x _ =>
    have hne : r ≠ x ∧ r ≠ vf := by simpa [mayWrite] using hr
    simp [hne]
  case addI | drw =>
    have hne : r ≠ vf := by simpa [mayWrite] using hr
    simp [hne]
  case loadRegs x =>
    have hgt : ¬ r.toNat ≤ x.toNat := by simpa [mayWrite] using hr
    exact s.loadRegsFrom_reg_of_gt _ hgt
  all_goals simp

/-! ### the latch -/

/-- Settles O19: no other instruction writes the latch, and the two that do write it only at their stack limit. -/
theorem onlyStackInstructionsFault : Obligations.OnlyStackInstructionsFault := by
  intro i s t h hne
  cases hw : writesStack i with
  | false =>
    obtain ⟨-, -, -, -, hstack, -⟩ := instructionWriteMatrix i s t h
    exact absurd (hstack hw).2.2 hne
  | true =>
    cases i
    case call nnn =>
      obtain ⟨hsp, rfl⟩ | ⟨hsp, rfl⟩ := exec_call_cases h
      · exact .inl ⟨hsp, rfl, nnn, rfl⟩
      · exact absurd rfl hne
    case ret =>
      obtain ⟨hsp, rfl⟩ | ⟨hsp, rfl⟩ := exec_ret_cases h
      · exact .inr ⟨hsp, rfl, rfl⟩
      · exact absurd rfl hne
    all_goals cases hw

/-- Settles O46: Fx18 is the encoder's word of LD ST, Vx, one write of ST; and a recognized instruction that takes no fault
leaves the latch clear, so its CYCLE reports nothing. -/
theorem soundTimerWrite : Obligations.SoundTimerWrite := by
  refine ⟨fun x s => ⟨decode_encode (.ldStVx x), rfl⟩, fun i s hf hd hcall hret => ?_⟩
  obtain ⟨t, ht⟩ := exec_next i s
  have hclear : t.fault = none := by
    by_contra hset
    rw [← hf] at hset
    obtain ⟨hsp, -, hi⟩ | ⟨hsp, -, hi⟩ := onlyStackInstructionsFault i s t ht hset
    · exact hcall hi hsp
    · exact hret hi hsp
  rw [outputs_cycle_of_decode_ok hf hd ht, if_pos hclear]

/-! ### where PC goes -/

theorem skipIf_pc {c : Bool} (h : s.skipIf c = .next t) : t.pc = nextPc s 2 ∨ t.pc = nextPc s 4 := by
  cases c
  all_goals cases h
  · exact .inl rfl
  · exact .inr rfl

theorem State.no_key_down {s : State} (h : s.lowestKey = none) (j : Fin 16) : s.key[j] = false :=
  s.lowestKey_none.1 h (BitVec.ofFin j)

/-- What an instruction does to PC: it takes a fault, waits, goes on by 2 or 4, or goes to its target. -/
theorem exec_pc (h : exec i s = .next t) :
    (t.pc = s.pc ∧ (t.fault ≠ none ∨ (∃ x, i = .ldVxK x) ∧ s.lowestKey = none)) ∨
    t.pc = nextPc s 2 ∨ t.pc = nextPc s 4 ∨
    (∃ nnn, (i = .jp nnn ∨ i = .call nnn) ∧ t.pc = nnn.setWidth 16) ∨
    (∃ nnn, i = .jpV0 nnn ∧ t.pc = addr12 ((s.reg 0).toNat + nnn.toNat)) ∨
    (i = .ret ∧ ∃ h : s.sp.val - 1 < 16, t.pc = addr12 (s.stack[s.sp.val - 1].toNat + 2)) := by
  cases i
  case call nnn =>
    obtain ⟨-, rfl⟩ | ⟨hsp, rfl⟩ := exec_call_cases h
    · exact .inl ⟨rfl, .inl nofun⟩
    · exact .inr (.inr (.inr (.inl ⟨nnn, .inr rfl, rfl⟩)))
  case ret =>
    obtain ⟨-, rfl⟩ | ⟨hsp, rfl⟩ := exec_ret_cases h
    · exact .inl ⟨rfl, .inl nofun⟩
    · exact .inr (.inr (.inr (.inr (.inr ⟨rfl, by omega, rfl⟩))))
  case ldVxK x =>
    obtain ⟨hkey, e⟩ | ⟨k, -, e⟩ := exec_ldVxK_cases x s
    all_goals
      rw [e] at h
      cases h
    · exact .inl ⟨rfl, .inr ⟨⟨x, rfl⟩, hkey⟩⟩
    · exact .inr (.inl rfl)
  case jp nnn =>
    rw [exec_jp] at h
    cases h
    exact .inr (.inr (.inr (.inl ⟨nnn, .inl rfl, rfl⟩)))
  case jpV0 nnn =>
    cases h
    exact .inr (.inr (.inr (.inr (.inl ⟨nnn, rfl, rfl⟩))))
  case seImm | sneImm | seReg | sneReg | skp | sknp =>
    obtain hpc | hpc := skipIf_pc h
    · exact .inr (.inl hpc)
    · exact .inr (.inr (.inl hpc))
  case storeRegs x =>
    rw [exec_storeRegs] at h
    cases h
    exact .inr (.inl rfl)
  case loadRegs x =>
    rw [exec_loadRegs] at h
    cases h
    exact .inr (.inl rfl)
  all_goals
    cases h
    exact .inr (.inl rfl)

/-- Settles O56: an unrecognized word goes on by 2, and a fetched instruction goes where it sends PC. -/
theorem pcAfterACycle : Obligations.PcAfterACycle := by
  intro s t hf h
  obtain ⟨f, hset, -⟩ | ⟨i, -, hd, e⟩ | ⟨r, -, -, e⟩ := step_cases s
  · rw [hf] at hset
    cases hset
  · rw [e] at h
    rw [hd]
    obtain ⟨hpc, hstay⟩ | hpc | hpc | ⟨nnn, hi, hpc⟩ | ⟨nnn, rfl, hpc⟩ | ⟨rfl, hsp, hpc⟩ := exec_pc h
    · refine .inl ⟨hpc, hstay.imp_right ?_⟩
      rintro ⟨⟨x, rfl⟩, hkey⟩
      exact ⟨⟨x, rfl⟩, State.no_key_down hkey⟩
    · exact .inr (.inl hpc)
    · exact .inr (.inr (.inl hpc))
    · exact .inr (.inr (.inr (.inl ⟨nnn, hi.imp (congrArg _) (congrArg _), hpc⟩)))
    · exact .inr (.inr (.inr (.inr (.inl ⟨nnn, rfl, by rw [hpc, addr12_toNat]⟩))))
    · exact .inr (.inr (.inr (.inr (.inr ⟨rfl, hsp, by rw [hpc, addr12_toNat]⟩))))
  · rw [e] at h
    cases h
    exact .inr (.inl rfl)

end Sys2Proof.Machine
end

section
/-! The host's events (10_state.md R45 to R47; 60_exceptions.md R203, R205): what each writes, and boot. -/

namespace Sys2Proof.Machine

variable {s t : State}

theorem State.loadRom_eq (s : State) (bytes : List Byte) :
    s.loadRom bytes = s.setMem (s.loadRom bytes).mem := by
  by_cases h : bytes.length ≤ 3584
  · rw [s.loadRom_of_fits h]
    exact s.writeBytes_eq 0x200 bytes
  · rw [s.loadRom_of_too_large (Nat.lt_of_not_le h)]
    rfl

/-- Settles O55: LOAD_ROM writes memory alone; each other event is one or two field updates. -/
theorem hostEventWriteMatrix : Obligations.HostEventWriteMatrix := by
  intro e s t hreset hcycle h
  cases e
  case reset => exact absurd rfl hreset
  case cycle => exact absurd rfl hcycle
  case loadRom bytes =>
    have ht : s.setMem (s.loadRom bytes).mem = t := (s.loadRom_eq bytes).symm.trans (Host.Outcome.next.inj h)
    subst ht
    simp
  all_goals
    cases h
    simp [State.tick, State.snapshot]

/-- Settles O49: one write of one entry of the key vector. -/
theorem setKeyWritesOneFlag : Obligations.SetKeyWritesOneFlag := by
  intro k down s
  refine ⟨rfl, s.key.set k.toNat down k.isLt, rfl, fun j => ?_⟩
  simp only [Fin.getElem_fin, Vector.getElem_set, eq_comm]

/-- Settles O50: SNAPSHOT is one write of the dirty flag. -/
theorem snapshotClearsDirty : Obligations.SnapshotClearsDirty := fun _ => ⟨rfl, rfl⟩

theorem State.memRead_loadRom (s : State) {bytes : List Byte} (h : bytes.length ≤ 3584) (k : Nat)
    (hk : k < bytes.length) : (s.loadRom bytes).memRead (0x200 + k) = bytes[k] := by
  rw [s.loadRom_of_fits h]
  exact s.memRead_writeBytes 0x200 bytes (by omega) k hk _ rfl

/-- Settles O52: PC after RESET is where LOAD_ROM puts the first byte, so the fetch reads the first two. -/
theorem bootFetchesTheFirstRomWord : Obligations.BootFetchesTheFirstRomWord := by
  intro s b0 b1 rest hrest
  have hfits : (b0 :: b1 :: rest).length ≤ 3584 := by
    simp only [List.length_cons]
    omega
  have hread := s.resetEvent.memRead_loadRom hfits
  have hrun : runEvents [.reset, .loadRom (b0 :: b1 :: rest)] s =
      .next (s.resetEvent.loadRom (b0 :: b1 :: rest)) := rfl
  have hframe := s.resetEvent.loadRom_eq (b0 :: b1 :: rest)
  generalize s.resetEvent.loadRom (b0 :: b1 :: rest) = t at hread hrun hframe
  have hpc : t.pc = 0x200 := by rw [hframe]; rfl
  have hfault : t.fault = none := by rw [hframe]; rfl
  have hfetch : t.fetch = b0 ++ b1 := by
    rw [State.fetch, hpc]
    exact congrArg₂ (· ++ ·) (hread 0 (by simp)) (hread 1 (by simp))
  exact ⟨t, hrun, hpc, hfault, hfetch, fun i hi => step_of_decode_ok hfault (by rw [hfetch, hi])⟩

end Sys2Proof.Machine
end

section
/-! Runs (10_state.md R46; 60_exceptions.md R185, R200 to R202): a run in two parts, a run of ticks, and a halted core. -/

namespace Sys2Proof.Machine

variable {s t : State}

/-! ### ticks -/

theorem runEvents_tick_cons (es : List Event) (s : State) : runEvents (.tick :: es) s = runEvents es s.tick := rfl

theorem runOutputs_tick_cons (es : List Event) (s : State) :
    runOutputs (.tick :: es) s = Event.outputs .tick s ++ runOutputs es s.tick := rfl

/-- A tick and then n more take a timer down as n + 1 do. -/
theorem countDown_toNat_sub (b : Byte) (n : Nat) : (countDown b).toNat - n = b.toNat - (n + 1) := by
  rw [countDown_toNat]
  omega

theorem runEvents_ticks (n : Nat) (s : State) :
    runEvents (List.replicate n .tick) s = .next { s with
      dt := BitVec.ofNat 8 (s.dt.toNat - n), st := BitVec.ofNat 8 (s.st.toNat - n) } := by
  induction n generalizing s with
  | zero => simp [runEvents]
  | succ n ih =>
    rw [List.replicate_succ, runEvents_tick_cons, ih]
    simp [State.tick, State.setDt, State.setSt, countDown_toNat_sub]

/-- The beep comes from the tick that finds ST at 1: the first of them or, ST being 0 after that one, a later one. -/
theorem runOutputs_ticks (n : Nat) (s : State) :
    runOutputs (List.replicate n .tick) s = if 1 ≤ s.st.toNat ∧ s.st.toNat ≤ n then [.beep] else [] := by
  induction n generalizing s with
  | zero =>
    have hout : ¬ (1 ≤ s.st.toNat ∧ s.st.toNat ≤ 0) := by omega
    rw [if_neg hout]
    rfl
  | succ n ih =>
    have hst : s.tick.st.toNat = s.st.toNat - 1 := countDown_toNat s.st
    rw [List.replicate_succ, runOutputs_tick_cons, outputs_tick, ih, hst]
    by_cases hone : s.st.toNat = 1
    · simp [hone]
    · have hiff : (1 ≤ s.st.toNat - 1 ∧ s.st.toNat - 1 ≤ n) ↔ (1 ≤ s.st.toNat ∧ s.st.toNat ≤ n + 1) := by omega
      simp only [if_neg hone, List.nil_append, hiff]

/-- Settles O48: the timers of a run of ticks, and its beep, each by induction on the ticks. -/
theorem ticksReachZeroAndBeepOnce : Obligations.TicksReachZeroAndBeepOnce := fun n s =>
  ⟨runEvents_ticks n s, runOutputs_ticks n s⟩

/-! ### the halted core -/

/-- An event other than RESET leaves a halted core's latch and everything but what is the event's own. -/
theorem apply_halted {e : Event} {f : Fault} (hf : s.fault = some f) (he : e ≠ .reset) (h : e.apply s = .next t) :
    t.fault = some f ∧ t.v = s.v ∧ t.i = s.i ∧ t.pc = s.pc ∧ t.sp = s.sp ∧ t.stack = s.stack ∧ t.fb = s.fb := by
  by_cases hc : e = .cycle
  · subst hc
    have hidle : step s = .next t := h
    rw [step_of_halted hf] at hidle
    cases hidle
    exact ⟨hf, rfl, rfl, rfl, rfl, rfl, rfl⟩
  · obtain ⟨hv, hi, hpc, hsp, hstack, hfb, hfault, -⟩ := hostEventWriteMatrix e s t he hc h
    exact ⟨hfault.trans hf, hv, hi, hpc, hsp, hstack, hfb⟩

/-- Settles O57: by induction on the events, none of which moves a halted core. -/
theorem haltedUntilReset : Obligations.HaltedUntilReset := by
  intro es
  induction es with
  | nil =>
    intro s t f hf _ h
    cases h
    exact ⟨hf, rfl, rfl, rfl, rfl, rfl, rfl⟩
  | cons e es ih =>
    intro s t f hf hes h
    rw [List.mem_cons, not_or] at hes
    obtain ⟨u, hu, ht⟩ := runEvents_cons h
    obtain ⟨uf, uv, ui, upc, usp, ustack, ufb⟩ := apply_halted hf (Ne.symm hes.1) hu
    obtain ⟨tf, tv, ti, tpc, tsp, tstack, tfb⟩ := ih u t f uf hes.2 ht
    exact ⟨tf, tv.trans uv, ti.trans ui, tpc.trans upc, tsp.trans usp, tstack.trans ustack, tfb.trans ufb⟩

/-- A run in two parts is the second part run from where the first ends. -/
theorem runEvents_append (es fs : List Event) (s t : State) (h : runEvents (es ++ fs) s = .next t) :
    ∃ u, runEvents es s = .next u ∧ runEvents fs u = .next t := by
  induction es generalizing s with
  | nil => exact ⟨s, rfl, h⟩
  | cons e es ih =>
    obtain ⟨r, hr, ht⟩ := runEvents_cons h
    obtain ⟨u, hu, hfs⟩ := ih r ht
    refine ⟨u, ?_, hfs⟩
    rw [runEvents, hr]
    exact hu

/-- Settles O58: a latch set at the end of the first part would still be set at the end of the run. -/
theorem safeRunHasSafePrefixes : Obligations.SafeRunHasSafePrefixes := by
  rintro es fs s hfs ⟨t, ht, hrun⟩
  obtain ⟨u, hu, hut⟩ := runEvents_append es fs s t ht
  refine ⟨u, hu, ?_⟩
  obtain hclear | ⟨f, hset⟩ := u.fault.eq_none_or_eq_some
  · exact hclear
  · obtain ⟨htf, -⟩ := haltedUntilReset fs u t f hset hfs hut
    rw [State.running, htf] at hrun
    cases hrun

end Sys2Proof.Machine
end

section
/-! What an instruction does not read (10_state.md R28, R29; 60_exceptions.md R208): the timers and the next random byte,
but for Fx07 and Cxkk, which name them. -/

namespace Sys2Proof.Machine

variable {s t : State} {i : Instr}

/-- The state with other timers and another count of draws. -/
def State.withUnread (s : State) (d e : Byte) (n : Nat) : State := { s with dt := d, st := e, draws := n }

theorem State.writeBytes_withUnread (s : State) (d e : Byte) (n addr : Nat) (bs : List Byte) :
    (s.withUnread d e n).writeBytes addr bs = (s.writeBytes addr bs).withUnread d e n := by
  induction bs generalizing s addr with
  | nil => rfl
  | cons b bs ih => exact ih (s.memWrite addr b) (addr + 1)

theorem State.loadRegsFrom_withUnread (s : State) (d e : Byte) (n addr k : Nat) :
    (s.withUnread d e n).loadRegsFrom addr k = (s.loadRegsFrom addr k).withUnread d e n := by
  induction k with
  | zero => rfl
  | succ k ih =>
    rw [State.loadRegsFrom, ih]
    rfl

/-- An instruction that names neither the timers nor the random byte carries them through. -/
theorem exec_withUnread (d e : Byte) (n : Nat) (hget : ∀ x, i ≠ .ldVxDt x) (hdt : ∀ x, i ≠ .ldDtVx x)
    (hst : ∀ x, i ≠ .ldStVx x) (hrnd : ∀ x kk, i ≠ .rnd x kk) (h : exec i s = .next t) :
    exec i (s.withUnread d e n) = .next (t.withUnread d e n) := by
  cases i
  case ldVxDt x => exact absurd rfl (hget x)
  case ldDtVx x => exact absurd rfl (hdt x)
  case ldStVx x => exact absurd rfl (hst x)
  case rnd x kk => exact absurd rfl (hrnd x kk)
  case call nnn =>
    obtain ⟨hsp, rfl⟩ | ⟨hsp, rfl⟩ := exec_call_cases h
    · exact exec_call_of_full nnn hsp
    · exact exec_call_of_lt (s := s.withUnread d e n) nnn hsp
  case ret =>
    obtain ⟨hsp, rfl⟩ | ⟨hsp, rfl⟩ := exec_ret_cases h
    · exact exec_ret_of_empty hsp
    · exact exec_ret_of_pos (s := s.withUnread d e n) hsp
  case ldVxK x =>
    obtain ⟨hkey, heq⟩ | ⟨k, hkey, heq⟩ := exec_ldVxK_cases x s
    all_goals
      rw [heq] at h
      cases h
    · exact exec_ldVxK_of_none (s := s.withUnread d e n) x hkey
    · exact exec_ldVxK_of_some (s := s.withUnread d e n) x hkey
  case ldB | storeRegs =>
    cases h
    exact congrArg State.done (s.writeBytes_withUnread d e n _ _)
  case loadRegs =>
    cases h
    exact congrArg State.done (s.loadRegsFrom_withUnread d e n _ _)
  all_goals
    cases h
    rfl

/-- Settles O59: the three timer moves are one update each, and every other instruction carries the count through, the
timers being as they were. -/
theorem randomByteReachesOnlyRnd : Obligations.RandomByteReachesOnlyRnd := by
  intro i s t d hrnd h
  by_cases hmove : (∃ x, i = .ldVxDt x) ∨ (∃ x, i = .ldDtVx x) ∨ ∃ x, i = .ldStVx x
  · obtain ⟨x, rfl⟩ | ⟨x, rfl⟩ | ⟨x, rfl⟩ := hmove
    all_goals
      cases h
      rfl
  · simp only [not_or, not_exists] at hmove
    obtain ⟨hget, hdt, hst⟩ := hmove
    obtain ⟨-, -, -, -, -, -, tdt, tst, -⟩ := instructionWriteMatrix i s t h
    have ht : t.withUnread s.dt s.st d = { t with draws := d } := by
      rw [← tdt hdt, ← tst hst]
      rfl
    exact (exec_withUnread s.dt s.st d hget hdt hst hrnd h).trans (congrArg _ ht)

/-- Settles O60: Fx15, Fx18 and Cxkk are one update each, and every other instruction carries the timers through, the count
being as it was. -/
theorem timersReachOnlyFx07 : Obligations.TimersReachOnlyFx07 := by
  intro i s t d e hget h
  by_cases hwrite : (∃ x, i = .ldDtVx x) ∨ (∃ x, i = .ldStVx x) ∨ ∃ x kk, i = .rnd x kk
  · obtain ⟨x, rfl⟩ | ⟨x, rfl⟩ | ⟨x, kk, rfl⟩ := hwrite
    all_goals
      cases h
      exact ⟨_, rfl, rfl⟩
  · simp only [not_or, not_exists] at hwrite
    obtain ⟨hdt, hst, hrnd⟩ := hwrite
    obtain ⟨-, -, -, -, -, -, -, -, tdraws⟩ := instructionWriteMatrix i s t h
    refine ⟨_, exec_withUnread d e s.draws hget hdt hst hrnd h, ?_⟩
    rw [← tdraws hrnd]
    rfl

end Sys2Proof.Machine
end

section
/-! The instructions that write the flag and the random byte (41_load_alu.md R136 to R141, R146): what a flag-writing end
leaves in the register file, and the byte and the flag of each in the words of the claims. -/

namespace Sys2Proof.Machine

open Sys2Proof.Claims (at_ nextPc)

variable (s : State)

/-! ### one register and the flag written -/

/-- The flag is written last, so it is what VF holds even where VF is the destination (decision D4). -/
theorem exec_of_doneWithFlag {s : State} {i : Instr} {x : Reg} {b f : Byte} (h : exec i s = s.doneWithFlag x b f) :
    ∃ v, exec i s = .next { s with v := v, pc := nextPc s 2 } ∧
      ∀ r, at_ v r = if r = 0xF then f else if r = x then b else s.reg r := by
  refine ⟨((s.setReg x b).setReg vf f).v, h, fun r => ?_⟩
  rw [State.at_setReg_v, State.setReg_reg]
  rfl

/-! ### bytes and flags -/

theorem carryFlag_eq (a b : Byte) : carryFlag a b = if 255 < a.toNat + b.toNat then 1 else 0 := by
  simp only [carryFlag, flagByte, decide_eq_true_eq]

theorem noBorrowFlag_eq (a b : Byte) : noBorrowFlag a b = if b.toNat ≤ a.toNat then 1 else 0 := by
  simp only [noBorrowFlag, flagByte, decide_eq_true_eq]

/-- The difference of two bytes, as the claims write it: no subtraction below 0. -/
theorem byte_sub_eq (a b : Byte) : a - b = BitVec.ofNat 8 ((a.toNat + 256 - b.toNat) % 256) := by
  apply BitVec.eq_of_toNat_eq
  rw [BitVec.toNat_sub, BitVec.toNat_ofNat]
  omega

theorem byte_shr_eq (a : Byte) : a >>> 1 = BitVec.ofNat 8 (a.toNat / 2) := by
  apply BitVec.eq_of_toNat_eq
  rw [BitVec.toNat_ushiftRight, BitVec.toNat_ofNat, Nat.shiftRight_one]
  omega

theorem byte_shl_eq (a : Byte) : a <<< 1 = BitVec.ofNat 8 (a.toNat * 2 % 256) := by
  apply BitVec.eq_of_toNat_eq
  rw [BitVec.toNat_shiftLeft, BitVec.toNat_ofNat, Nat.shiftLeft_eq]
  omega

theorem shrFlag_eq (a : Byte) : shrFlag a = BitVec.ofNat 8 (a.toNat % 2) := by
  revert a
  decide

theorem shlFlag_eq (a : Byte) : shlFlag a = BitVec.ofNat 8 (a.toNat / 128) := by
  revert a
  decide

/-! ### what each instruction writes -/

theorem exec_addReg (x y : Reg) :
    exec (.addReg x y) s = s.doneWithFlag x (BitVec.ofNat 8 (((s.reg x).toNat + (s.reg y).toNat) % 256))
      (if 255 < (s.reg x).toNat + (s.reg y).toNat then 1 else 0) := by
  rw [← byte_add_eq, ← carryFlag_eq]
  rfl

theorem exec_sub (x y : Reg) :
    exec (.sub x y) s = s.doneWithFlag x (BitVec.ofNat 8 (((s.reg x).toNat + 256 - (s.reg y).toNat) % 256))
      (if (s.reg y).toNat ≤ (s.reg x).toNat then 1 else 0) := by
  rw [← byte_sub_eq, ← noBorrowFlag_eq]
  rfl

theorem exec_subn (x y : Reg) :
    exec (.subn x y) s = s.doneWithFlag x (BitVec.ofNat 8 (((s.reg y).toNat + 256 - (s.reg x).toNat) % 256))
      (if (s.reg x).toNat ≤ (s.reg y).toNat then 1 else 0) := by
  rw [← byte_sub_eq, ← noBorrowFlag_eq]
  rfl

theorem exec_shr (x y : Reg) :
    exec (.shr x y) s = s.doneWithFlag x (BitVec.ofNat 8 ((s.reg x).toNat / 2))
      (BitVec.ofNat 8 ((s.reg x).toNat % 2)) := by
  rw [← byte_shr_eq, ← shrFlag_eq]
  rfl

theorem exec_shl (x y : Reg) :
    exec (.shl x y) s = s.doneWithFlag x (BitVec.ofNat 8 ((s.reg x).toNat * 2 % 256))
      (BitVec.ofNat 8 ((s.reg x).toNat / 128)) := by
  rw [← byte_shl_eq, ← shlFlag_eq]
  rfl

theorem exec_rnd (x : Reg) (kk : Byte) :
    exec (.rnd x kk) s = .next { s with
      v := (s.setReg x (Config.rnd s.draws &&& kk)).v, pc := nextPc s 2, draws := s.draws + 1 } :=
  rfl

/-! ### the obligations -/

/-- Settles O27: 8xy4 is the encoder's word of ADD, which writes the reduced sum and then the carry. -/
theorem addRegistersSetsCarry : Obligations.AddRegistersSetsCarry := fun x y s =>
  ⟨decode_encode (.addReg x y), exec_of_doneWithFlag (exec_addReg s x y)⟩

/-- Settles O28: 8xy5 and 8xy7 are the encoder's words of SUB and SUBN, each of which writes the reduced difference and then
the comparison. -/
theorem subtractSetsNoBorrow : Obligations.SubtractSetsNoBorrow := fun x y s =>
  ⟨⟨decode_encode (.sub x y), exec_of_doneWithFlag (exec_sub s x y)⟩,
   ⟨decode_encode (.subn x y), exec_of_doneWithFlag (exec_subn s x y)⟩⟩

/-- Settles O29: 8xy6 and 8xyE are the encoder's words of SHR and SHL, each of which writes the shifted byte and then the
bit shifted out, none of them from V[y]. -/
theorem shiftsSetTheBitShiftedOut : Obligations.ShiftsSetTheBitShiftedOut := fun x y s =>
  ⟨⟨decode_encode (.shr x y), exec_of_doneWithFlag (exec_shr s x y)⟩,
   ⟨decode_encode (.shl x y), exec_of_doneWithFlag (exec_shl s x y)⟩⟩

/-- Settles O30: Cxkk is the encoder's word of RND, whose only register write is the masked byte to V[x]. -/
theorem randomByteIsMasked : Obligations.RandomByteIsMasked := fun x kk s =>
  ⟨decode_encode (.rnd x kk), _, exec_rnd s x kk, s.at_setReg_v x _⟩

end Sys2Proof.Machine
end

section
/-! The key instructions (44_keys_timers.md R170 to R172): the key that a byte selects, and the least key that is down. -/

namespace Sys2Proof.Machine

variable (s : State)

/-- The low four bits of a byte are the byte mod 16. -/
theorem keyDown_keySelect (b : Byte) : s.keyDown (keySelect b) = s.key[b.toNat % 16] := by
  simp only [State.keyDown, keySelect, BitVec.extractLsb'_toNat, Nat.shiftRight_zero]

/-- Settles O43: Ex9E and ExA1 are the encoder's words of SKP and SKNP, each a skip on the level of the key selected. -/
theorem keySkips : Obligations.KeySkips := by
  intro x s
  refine ⟨⟨decode_encode (.skp x), ?_⟩, decode_encode (.sknp x), ?_⟩
  · exact s.skipIf_eq (by rw [keyDown_keySelect])
  · exact s.skipIf_eq (by rw [keyDown_keySelect, Bool.not_eq_true'])

theorem lowestKey_eq_some {k : Fin 16} (hk : s.key[k] = true) (hlow : ∀ j : Fin 16, j < k → s.key[j] = false) :
    s.lowestKey = some k.val :=
  (s.lowestKey_some k.val).2 ⟨k.isLt, hk, fun j hj => hlow ⟨j, by omega⟩ hj⟩

theorem lowestKey_eq_none (h : ∀ j : Fin 16, s.key[j] = false) : s.lowestKey = none :=
  s.lowestKey_none.2 fun k => h k.toFin

/-- Settles O44: Fx0A is the encoder's word of LD Vx, K; the least key down is the one reported, and none where none is
down. -/
theorem keyWait : Obligations.KeyWait := fun x s =>
  ⟨decode_encode (.ldVxK x), fun h => exec_ldVxK_of_none x (lowestKey_eq_none s h),
   fun _ hk hlow => exec_of_setReg_done (exec_ldVxK_of_some x (lowestKey_eq_some s hk hlow))⟩

end Sys2Proof.Machine
end

section
/-! Stores and loads together (42_index_memory.md R153 to R155; 20_memory.md R73): registers and digits loaded back, and
stored bytes fetched by the next step. -/

namespace Sys2Proof.Machine

open Sys2Proof.Claims (nextPc executesNext)

variable (s : State)

/-! ### loaded back -/

/-- A block load of bytes that the registers already hold changes PC alone. -/
theorem exec_loadRegs_of_held {t : State} {x : Reg}
    (h : ∀ r : Reg, r.toNat ≤ x.toNat → t.memRead (t.i.toNat + r.toNat) = t.reg r) :
    exec (.loadRegs x) t = .next { t with pc := nextPc t 2 } := by
  have hv : (t.loadRegsFrom t.i.toNat (x.toNat + 1)).v = t.v := by
    refine v_ext fun r => ?_
    have hr := t.at_loadRegsFrom_v t.i.toNat x r
    split_ifs at hr with hle
    · exact hr.trans (h r hle)
    · exact hr
  rw [exec_loadRegs, hv]

/-- Settles O37: each stored register is read back from the address it was stored to. -/
theorem storeThenLoadRestoresRegisters : Obligations.StoreThenLoadRestoresRegisters := by
  intro x s t h
  rw [exec_storeRegs] at h
  cases h
  exact exec_loadRegs_of_held fun r hr =>
    (s.read_writeBytes_mem _ _ _).trans (s.memRead_writeBytes_regsUpTo s.i.toNat hr)

/-- The digits' places make the byte, which is less than 256. -/
theorem digits_make_byte (b : Byte) :
    (BitVec.ofNat 8 (b.toNat / 100)).toNat * 100 + (BitVec.ofNat 8 (b.toNat / 10 % 10)).toNat * 10 +
        (BitVec.ofNat 8 (b.toNat % 10)).toNat = b.toNat ∧
      (BitVec.ofNat 8 (b.toNat / 100)).toNat ≤ 2 ∧ (BitVec.ofNat 8 (b.toNat / 10 % 10)).toNat ≤ 9 ∧
      (BitVec.ofNat 8 (b.toNat % 10)).toNat ≤ 9 := by
  have hb := b.isLt
  simp only [BitVec.toNat_ofNat]
  omega

/-- The three lowest registers after Fx33 and F265: the digits, each read at the address it was stored to. -/
theorem digits_loaded_back {s t : State} {x : Reg} (h : exec (.ldB x) s = .next t) :
    ∃ u, exec (.loadRegs 2) t = .next u ∧
      ∀ r : Reg, ∀ hr : r.toNat ≤ 2, u.reg r = (bcdDigits (s.reg x))[r.toNat]'(Nat.lt_succ_of_le hr) := by
  rw [exec_ldB] at h
  cases h
  refine ⟨_, exec_loadRegs _ 2, fun r hr => ?_⟩
  refine (State.at_loadRegsFrom_v _ s.i.toNat 2 r).trans ((if_pos hr).trans ?_)
  exact (s.read_writeBytes_mem _ _ _).trans
    (s.memRead_writeBytes _ (bcdDigits (s.reg x)) (by simp [bcdDigits]) r.toNat (Nat.lt_succ_of_le hr) _ rfl)

/-- Settles O38: the digits are loaded back into V0, V1 and V2, and they make the byte. -/
theorem digitsLoadedBackMakeTheByte : Obligations.DigitsLoadedBackMakeTheByte := by
  intro x s t h
  obtain ⟨u, hu, hreg⟩ := digits_loaded_back h
  refine ⟨u, hu, ?_⟩
  rw [hreg 0 (by decide), hreg 1 (by decide), hreg 2 (by decide)]
  exact digits_make_byte (s.reg x)

/-! ### fetched -/

/-- A running core executes the word it would fetch. -/
theorem executesNext_fetch {t : State} (h : t.fault = none) : executesNext t t.fetch :=
  ⟨rfl, fun _ hd => step_of_decode_ok h hd, fun _ hd => step_of_decode_error h hd⟩

/-- The word at PC + 2 once bytes are written there: the first byte, and whatever is read at the address past it. -/
theorem fetch_writeBytes_next {bs : List Byte} {addr : Nat} (haddr : addr % 4096 = (s.pc.toNat + 2) % 4096)
    (hlen : bs.length ≤ 4096) (hpos : 0 < bs.length) :
    State.fetch { s with mem := (s.writeBytes addr bs).mem, pc := nextPc s 2 } =
      bs[0] ++ (s.writeBytes addr bs).memRead (s.pc.toNat + 3) := by
  have hpc : (nextPc s 2).toNat = (s.pc.toNat + 2) % 4096 := addr12_toNat _
  have hhi : (s.writeBytes addr bs).memRead (nextPc s 2).toNat = bs[0] :=
    s.memRead_writeBytes addr bs hlen 0 hpos _ (by omega)
  have hlo : (s.writeBytes addr bs).memRead ((nextPc s 2).toNat + 1) =
      (s.writeBytes addr bs).memRead (s.pc.toNat + 3) :=
    State.memRead_congr _ (by omega)
  rw [← hhi, ← hlo, ← s.read_writeBytes_mem, ← s.read_writeBytes_mem]
  rfl

/-- The byte one past the start of a block store: V1, or what was there where V0 alone is stored. -/
theorem memRead_regsUpTo_second {addr a : Nat} (x : Reg) (ha : a % 4096 = (addr + 1) % 4096) :
    (s.writeBytes addr (s.regsUpTo x)).memRead a = if x = 0 then s.memRead a else s.reg 1 := by
  have hlen := s.regsUpTo_length x
  split_ifs with hx
  case pos =>
    refine s.memRead_writeBytes_regsUpTo_of_ne addr x fun j hj => ?_
    have hj0 : j = 0 := by simpa [hx] using hj
    omega
  case neg =>
    have hx0 : x.toNat ≠ 0 := fun h => hx (BitVec.eq_of_toNat_eq h)
    exact (s.memRead_writeBytes addr _ (by omega) 1 (by omega) a ha).trans (s.regsUpTo_get x 1 (by omega))

/-- Settles O39: the store lies where the next fetch reads, so its first bytes are the word fetched. -/
theorem storeIsSeenByTheNextFetch : Obligations.StoreIsSeenByTheNextFetch := by
  intro x s t hf hi
  constructor
  · intro h
    rw [exec_storeRegs] at h
    cases h
    have hlen := s.regsUpTo_length x
    have hfetch := fetch_writeBytes_next s (bs := s.regsUpTo x) hi (by omega) (by omega)
    rw [memRead_regsUpTo_second s x (by omega), s.regsUpTo_get] at hfetch
    exact hfetch ▸ executesNext_fetch hf
  · intro h
    rw [exec_ldB] at h
    cases h
    have hlen : (bcdDigits (s.reg x)).length = 3 := rfl
    have hfetch := fetch_writeBytes_next s (bs := bcdDigits (s.reg x)) hi (by omega) (by omega)
    rw [s.memRead_writeBytes _ (bcdDigits (s.reg x)) (by omega) 1 (by omega) _ (by omega)] at hfetch
    exact hfetch ▸ executesNext_fetch hf

end Sys2Proof.Machine
end

section
/-! The sprite draw (43_display.md R161 to R163): the drawing Dxyn makes, in the words of the claims, and the same sprite
drawn twice. -/

namespace Sys2Proof.Machine

open Sys2Proof.Claims (nextPc spriteBit collides)

variable {s t : State} (x y : Reg) (n : BitVec 4)

/-! ### one drawing -/

/-- The bytes a draw reads are the rows of its sprite: past the last row no bit lands. -/
theorem spriteBitAt_readBytes (s : State) (px py : Nat) :
    spriteBitAt (s.readBytes (s.indexed 0) n.toNat) (anchorX (s.reg x)) (anchorY (s.reg y)) px py =
      spriteBit s x y n px py := by
  unfold spriteBitAt spriteBit
  rw [← anchorX, ← anchorY]
  by_cases hcol : anchorX (s.reg x) ≤ px ∧ px < anchorX (s.reg x) + 8 ∧ anchorY (s.reg y) ≤ py
  · rw [if_pos hcol]
    have hlen := s.readBytes_length (s.indexed 0) n.toNat
    by_cases hrow : py < anchorY (s.reg y) + n.toNat
    · rw [if_pos (by tauto), List.getElem?_eq_getElem (by omega), Option.getD_some, s.readBytes_get]
      rfl
    · rw [if_neg (by tauto), List.getElem?_eq_none (by omega), Option.getD_none]
      exact BitVec.getLsbD_zero
  · rw [if_neg hcol, if_neg (by tauto)]

theorem pixel_drawn (s : State) {px py : Nat} (hx : px < 64) (hy : py < 32) :
    pixel (s.drawn x y n).fb px py = (pixel s.fb px py ^^ spriteBit s x y n px py) := by
  rw [State.drawn, pixel_drawSprite _ _ _ _ _ _ hx hy, spriteBitAt_readBytes]

theorem hit_drawn (s : State) : (s.drawn x y n).hit = true ↔ collides s x y n := by
  rw [State.drawn, hit_drawSprite]
  simp only [spriteBitAt_readBytes, Bool.false_eq_true, false_or, collides]
  constructor
  · rintro ⟨px, hx, py, hy, hbit, hset⟩
    exact ⟨px, py, hx, hy, hbit, hset⟩
  · rintro ⟨px, py, hx, hy, hbit, hset⟩
    exact ⟨px, hx, py, hy, hbit, hset⟩

theorem exec_drw (s : State) :
    exec (.drw x y n) s = .next { s with
      v := (s.setReg vf (flagByte (s.drawn x y n).hit)).v
      fb := (s.drawn x y n).fb
      dirty := s.dirty || decide (0 < n.toNat)
      pc := nextPc s 2 } :=
  rfl

/-- VF after a draw is its collision. -/
theorem reg_vf_of_drw (h : exec (.drw x y n) s = .next t) : t.reg vf = if (s.drawn x y n).hit then 1 else 0 := by
  cases h
  exact (s.setReg_reg vf _ vf).trans (if_pos rfl)

theorem pixel_of_drw (h : exec (.drw x y n) s = .next t) {px py : Nat} (hx : px < 64) (hy : py < 32) :
    pixel t.fb px py = (pixel s.fb px py ^^ spriteBit s x y n px py) := by
  cases h
  exact pixel_drawn x y n s hx hy

/-- Settles O41: Dxyn is the encoder's word of DRW, whose only register write is the collision to VF. -/
theorem drawXorsTheSprite : Obligations.DrawXorsTheSprite := by
  intro x y n s
  have hvf := reg_vf_of_drw x y n (exec_drw x y n s)
  refine ⟨decode_encode (.drw x y n), _, _, exec_drw x y n s, fun px hx py hy => pixel_drawn x y n s hx hy,
    fun r hr => ?other, fun hc => ?hit, fun hc => ?miss⟩
  case other => exact (s.at_setReg_v vf _ r).trans (if_neg hr)
  case hit => exact hvf.trans (if_pos ((hit_drawn x y n s).2 hc))
  case miss => exact hvf.trans (if_neg (mt (hit_drawn x y n s).1 hc))

/-! ### the same sprite drawn twice -/

/-- The sprite depends on the anchor, the start address and the bytes read alone. -/
theorem spriteBit_congr (hi : t.i = s.i) (hmem : ∀ a, t.memRead a = s.memRead a)
    (hx : (t.reg x).toNat % 64 = (s.reg x).toNat % 64) (hy : (t.reg y).toNat % 32 = (s.reg y).toNat % 32)
    (px py : Nat) : spriteBit t x y n px py = spriteBit s x y n px py := by
  simp only [spriteBit, hi, hmem, hx, hy]

/-- A draw leaves I and every byte as they were. -/
theorem frame_of_drw (h : exec (.drw x y n) s = .next t) : t.i = s.i ∧ ∀ a, t.memRead a = s.memRead a := by
  cases h
  exact ⟨rfl, fun _ => rfl⟩

theorem reg_vf_eq_one_iff (h : exec (.drw x y n) s = .next t) : t.reg vf = 1 ↔ collides s x y n := by
  rw [reg_vf_of_drw x y n h, ← hit_drawn]
  cases (s.drawn x y n).hit <;> decide

/-- Settles O42: the second draw XORs the same sprite onto what the first left, and a sprite bit finds a pixel set exactly
where it had been unset before the first. -/
theorem drawTwiceRestores : Obligations.DrawTwiceRestores := by
  intro x y n s t h hx hy
  obtain ⟨u, hu⟩ := exec_next (.drw x y n) t
  obtain ⟨hi, hmem⟩ := frame_of_drw x y n h
  have hbit := spriteBit_congr x y n hi hmem hx hy
  refine ⟨u, hu, fb_ext fun px hpx py hpy => ?pixels, ?flag⟩
  case pixels =>
    rw [pixel_of_drw x y n hu hpx hpy, pixel_of_drw x y n h hpx hpy, hbit, Bool.xor_assoc, Bool.xor_self,
      Bool.xor_false]
  case flag =>
    refine (reg_vf_eq_one_iff x y n hu).trans ?_
    refine exists_congr fun px => exists_congr fun py => and_congr_right fun hpx => and_congr_right fun hpy => ?_
    rw [hbit, pixel_of_drw x y n h hpx hpy]
    refine and_congr_right fun hone => ?_
    rw [hone, Bool.xor_true, Bool.not_eq_true']

end Sys2Proof.Machine
end
